-- ==== Sys2Proof/Word.lean ====
section
/-! DEFINITION. The widths of the machine (spec rules R5, R20, R62). -/

namespace Sys2Proof

/-- A 32-bit value: a general register, the program counter, an address or an instruction word (R5, R20, R60). -/
abbrev Word := BitVec 32

/-- One addressable unit of memory (R40). -/
abbrev Byte := BitVec 8

/-- A 5-bit register number, 0 to 31; every value is legal in every register field (R62). -/
abbrev Reg := BitVec 5

end Sys2Proof
end

