-- ==== Sys2Proof/Machine/Flags.lean ====
section
/-! DEFINITION. The conditions of the comparisons and branches (spec rule R7). The machine has no flags (R28): a comparison
delivers its result as a value or acts on it at once. -/

namespace Sys2Proof.Machine

/-- `a <s b` (R7). -/
def ltSigned (a b : Word) : Bool := decide (a.toInt < b.toInt)

/-- `a >=s b`, the negation of `a <s b` (R7). -/
def geSigned (a b : Word) : Bool := !ltSigned a b

/-- `a <u b` (R7). -/
def ltUnsigned (a b : Word) : Bool := decide (a.toNat < b.toNat)

/-- `a >=u b`, the negation of `a <u b` (R7). -/
def geUnsigned (a b : Word) : Bool := !ltUnsigned a b

/-- `a == b`: all 32 bits agree (R7). -/
def eqWord (a b : Word) : Bool := decide (a = b)

/-- `a != b` (R7). -/
def neWord (a b : Word) : Bool := !eqWord a b

/-- `bool32(t)`: 1 when true, 0 when false (R7; the spec's decision D4, notes/assumptions/10.md). -/
def bool32 (t : Bool) : Word := if t then 0x00000001#32 else 0x00000000#32

end Sys2Proof.Machine
end

