-- ==== Sys2Proof/Syntax.lean ====
section
/-! DEFINITION. The 31 instructions of the opcode map (spec rules R2, R73), operands in the order of the assembly lines (R86). -/

namespace Sys2Proof

/-- One constructor per row of the opcode map of rule R73. An immediate is the vector that rules R67 to R72 build from
the instruction word: 12 bits for the I- and S-immediate, 13 bits (bit 0 zero) for the B-immediate, 21 bits (bit 0 zero)
for the J-immediate, the 20-bit field for the U-immediate, 5 bits for a shift amount. -/
inductive Instr where
  /-- R102 -/
  | add (rd rs1 rs2 : Reg)
  /-- R103 -/
  | sub (rd rs1 rs2 : Reg)
  /-- R104 -/
  | and (rd rs1 rs2 : Reg)
  /-- R105 -/
  | or (rd rs1 rs2 : Reg)
  /-- R106 -/
  | xor (rd rs1 rs2 : Reg)
  /-- R107 -/
  | slt (rd rs1 rs2 : Reg)
  /-- R108 -/
  | sltu (rd rs1 rs2 : Reg)
  /-- R109 -/
  | sra (rd rs1 rs2 : Reg)
  /-- R110 -/
  | srl (rd rs1 rs2 : Reg)
  /-- R111 -/
  | sll (rd rs1 rs2 : Reg)
  /-- R122 -/
  | addi (rd rs1 : Reg) (imm : BitVec 12)
  /-- R123 -/
  | andi (rd rs1 : Reg) (imm : BitVec 12)
  /-- R124 -/
  | ori (rd rs1 : Reg) (imm : BitVec 12)
  /-- R125 -/
  | xori (rd rs1 : Reg) (imm : BitVec 12)
  /-- R126 -/
  | slti (rd rs1 : Reg) (imm : BitVec 12)
  /-- R127 -/
  | sltiu (rd rs1 : Reg) (imm : BitVec 12)
  /-- R128 -/
  | srai (rd rs1 : Reg) (shamt : BitVec 5)
  /-- R129 -/
  | srli (rd rs1 : Reg) (shamt : BitVec 5)
  /-- R130 -/
  | slli (rd rs1 : Reg) (shamt : BitVec 5)
  /-- R131 -/
  | lui (rd : Reg) (imm : BitVec 20)
  /-- R132 -/
  | auipc (rd : Reg) (imm : BitVec 20)
  /-- R141 -/
  | lw (rd rs1 : Reg) (imm : BitVec 12)
  /-- R142; the register stored comes first, as in the assembly line -/
  | sw (rs2 rs1 : Reg) (imm : BitVec 12)
  /-- R151 -/
  | jal (rd : Reg) (imm : BitVec 21)
  /-- R152 -/
  | jalr (rd rs1 : Reg) (imm : BitVec 12)
  /-- R161 -/
  | beq (rs1 rs2 : Reg) (imm : BitVec 13)
  /-- R162 -/
  | bne (rs1 rs2 : Reg) (imm : BitVec 13)
  /-- R163 -/
  | blt (rs1 rs2 : Reg) (imm : BitVec 13)
  /-- R164 -/
  | bge (rs1 rs2 : Reg) (imm : BitVec 13)
  /-- R165 -/
  | bltu (rs1 rs2 : Reg) (imm : BitVec 13)
  /-- R166 -/
  | bgeu (rs1 rs2 : Reg) (imm : BitVec 13)
  deriving DecidableEq, Repr

end Sys2Proof
end

