-- ==== Sys2Proof/WellFormed.lean ====
section
/-! DEFINITION. Which terms of `Instr` can be encoded (spec rules R69, R71, R86): the types bound every other operand, so
the two checks are that a B-immediate and a J-immediate are even. -/

namespace Sys2Proof

/-- A B-immediate has bit 0 zero (R69). -/
def evenB (imm : BitVec 13) : Bool := !imm.getLsbD 0

/-- A J-immediate has bit 0 zero (R71). -/
def evenJ (imm : BitVec 21) : Bool := !imm.getLsbD 0

/-- The instruction has an encoding: "An operand outside its range cannot be encoded" (R86). -/
def Instr.wellFormed : Instr → Bool
  | .add _ _ _ => true
  | .sub _ _ _ => true
  | .and _ _ _ => true
  | .or _ _ _ => true
  | .xor _ _ _ => true
  | .slt _ _ _ => true
  | .sltu _ _ _ => true
  | .sra _ _ _ => true
  | .srl _ _ _ => true
  | .sll _ _ _ => true
  | .addi _ _ _ => true
  | .andi _ _ _ => true
  | .ori _ _ _ => true
  | .xori _ _ _ => true
  | .slti _ _ _ => true
  | .sltiu _ _ _ => true
  | .srai _ _ _ => true
  | .srli _ _ _ => true
  | .slli _ _ _ => true
  | .lui _ _ => true
  | .auipc _ _ => true
  | .lw _ _ _ => true
  | .sw _ _ _ => true
  | .jal _ imm => evenJ imm
  | .jalr _ _ _ => true
  | .beq _ _ imm => evenB imm
  | .bne _ _ imm => evenB imm
  | .blt _ _ imm => evenB imm
  | .bge _ _ imm => evenB imm
  | .bltu _ _ imm => evenB imm
  | .bgeu _ _ imm => evenB imm

end Sys2Proof
end

