-- ==== Sys2Proof/Decode.lean ====
section
/-! DEFINITION. Fields, immediates, the opcode map, the decoder and the encoder (spec rules R60 to R74, R80, and R41 for
the order of an instruction's bytes). -/

namespace Sys2Proof

/-! ## Fields of an instruction word (R61, R62) -/

/-- `inst[6:0]` -/
def opcodeOf (w : Word) : BitVec 7 := w.extractLsb' 0 7

/-- `inst[11:7]` -/
def rdOf (w : Word) : Reg := w.extractLsb' 7 5

/-- `inst[14:12]` -/
def funct3Of (w : Word) : BitVec 3 := w.extractLsb' 12 3

/-- `inst[19:15]` -/
def rs1Of (w : Word) : Reg := w.extractLsb' 15 5

/-- `inst[24:20]` -/
def rs2Of (w : Word) : Reg := w.extractLsb' 20 5

/-- `inst[31:25]` -/
def funct7Of (w : Word) : BitVec 7 := w.extractLsb' 25 7

/-! ## Immediates (R67 to R72) -/

/-- The I-immediate `inst[31:20]` (R67). -/
def immIOf (w : Word) : BitVec 12 := w.extractLsb' 20 12

/-- The S-immediate, `imm[11:5]` in `inst[31:25]` and `imm[4:0]` in `inst[11:7]` (R68; the spec's decision D5). -/
def immSOf (w : Word) : BitVec 12 := w.extractLsb' 25 7 ++ w.extractLsb' 7 5

/-- The B-immediate, `inst[31], inst[7], inst[30:25], inst[11:8], 0` (R69; the spec's decision D5). -/
def immBOf (w : Word) : BitVec 13 :=
  w.extractLsb' 31 1 ++ w.extractLsb' 7 1 ++ w.extractLsb' 25 6 ++ w.extractLsb' 8 4 ++ 0#1

/-- The 20-bit field of the U-immediate `inst[31:12]` (R70). -/
def immUOf (w : Word) : BitVec 20 := w.extractLsb' 12 20

/-- The J-immediate, `inst[31], inst[19:12], inst[20], inst[30:21], 0` (R71; the spec's decision D5). -/
def immJOf (w : Word) : BitVec 21 :=
  w.extractLsb' 31 1 ++ w.extractLsb' 12 8 ++ w.extractLsb' 20 1 ++ w.extractLsb' 21 10 ++ 0#1

/-- The shift amount `inst[24:20]` (R72). -/
def shamtOf (w : Word) : BitVec 5 := w.extractLsb' 20 5

/-! ## The decoder (R73, R74, R80) -/

/-- Why bytes are no instruction. -/
inductive DecodeError where
  /-- The word matches no row of the opcode map (R80). -/
  | illegal (w : Word)
  /-- Fewer than the four bytes of an instruction (R60). Raised by `decode` only: a fetch always has four bytes. -/
  | truncated
  deriving DecidableEq, Repr

/-- Opcode `0110011`: told apart by funct3 and funct7 (R73, R100). -/
def decodeRegReg (w : Word) : Option Instr :=
  match funct7Of w, funct3Of w with
  | 0b0000000#7, 0b000#3 => some (.add (rdOf w) (rs1Of w) (rs2Of w))
  | 0b0100000#7, 0b000#3 => some (.sub (rdOf w) (rs1Of w) (rs2Of w))
  | 0b0000000#7, 0b111#3 => some (.and (rdOf w) (rs1Of w) (rs2Of w))
  | 0b0000000#7, 0b110#3 => some (.or (rdOf w) (rs1Of w) (rs2Of w))
  | 0b0000000#7, 0b100#3 => some (.xor (rdOf w) (rs1Of w) (rs2Of w))
  | 0b0000000#7, 0b010#3 => some (.slt (rdOf w) (rs1Of w) (rs2Of w))
  | 0b0000000#7, 0b011#3 => some (.sltu (rdOf w) (rs1Of w) (rs2Of w))
  | 0b0100000#7, 0b101#3 => some (.sra (rdOf w) (rs1Of w) (rs2Of w))
  | 0b0000000#7, 0b101#3 => some (.srl (rdOf w) (rs1Of w) (rs2Of w))
  | 0b0000000#7, 0b001#3 => some (.sll (rdOf w) (rs1Of w) (rs2Of w))
  | _, _ => none

/-- Opcode `0010011`: told apart by funct3 and, for the shifts, by funct7 (R73, R120). -/
def decodeRegImm (w : Word) : Option Instr :=
  match funct3Of w with
  | 0b000#3 => some (.addi (rdOf w) (rs1Of w) (immIOf w))
  | 0b111#3 => some (.andi (rdOf w) (rs1Of w) (immIOf w))
  | 0b110#3 => some (.ori (rdOf w) (rs1Of w) (immIOf w))
  | 0b100#3 => some (.xori (rdOf w) (rs1Of w) (immIOf w))
  | 0b010#3 => some (.slti (rdOf w) (rs1Of w) (immIOf w))
  | 0b011#3 => some (.sltiu (rdOf w) (rs1Of w) (immIOf w))
  | 0b001#3 =>
    match funct7Of w with
    | 0b0000000#7 => some (.slli (rdOf w) (rs1Of w) (shamtOf w))
    | _ => none
  | 0b101#3 =>
    match funct7Of w with
    | 0b0100000#7 => some (.srai (rdOf w) (rs1Of w) (shamtOf w))
    | 0b0000000#7 => some (.srli (rdOf w) (rs1Of w) (shamtOf w))
    | _ => none

/-- Opcode `1100011`: told apart by funct3 (R73, R160). -/
def decodeBranch (w : Word) : Option Instr :=
  match funct3Of w with
  | 0b000#3 => some (.beq (rs1Of w) (rs2Of w) (immBOf w))
  | 0b001#3 => some (.bne (rs1Of w) (rs2Of w) (immBOf w))
  | 0b100#3 => some (.blt (rs1Of w) (rs2Of w) (immBOf w))
  | 0b101#3 => some (.bge (rs1Of w) (rs2Of w) (immBOf w))
  | 0b110#3 => some (.bltu (rs1Of w) (rs2Of w) (immBOf w))
  | 0b111#3 => some (.bgeu (rs1Of w) (rs2Of w) (immBOf w))
  | _ => none

/-- The row of the opcode map that a word matches, read by its opcode (R73, "Seen by opcode"). -/
def decodeRow (w : Word) : Option Instr :=
  match opcodeOf w with
  | 0b0000011#7 =>
    match funct3Of w with
    | 0b010#3 => some (.lw (rdOf w) (rs1Of w) (immIOf w))
    | _ => none
  | 0b0010011#7 => decodeRegImm w
  | 0b0010111#7 => some (.auipc (rdOf w) (immUOf w))
  | 0b0100011#7 =>
    match funct3Of w with
    | 0b010#3 => some (.sw (rs2Of w) (rs1Of w) (immSOf w))
    | _ => none
  | 0b0110011#7 => decodeRegReg w
  | 0b0110111#7 => some (.lui (rdOf w) (immUOf w))
  | 0b1100011#7 => decodeBranch w
  | 0b1100111#7 =>
    match funct3Of w with
    | 0b000#3 => some (.jalr (rdOf w) (rs1Of w) (immIOf w))
    | _ => none
  | 0b1101111#7 => some (.jal (rdOf w) (immJOf w))
  | _ => none

/-- Decoding of one instruction word, total, rejecting by name (R74, R80). -/
def decodeWord (w : Word) : Except DecodeError Instr :=
  match decodeRow w with
  | some i => .ok i
  | none => .error (.illegal w)

/-- The word whose four bytes lie at rising addresses `b0 b1 b2 b3`: little-endian (R41; the spec's decision D7). -/
def wordOfBytes (b0 b1 b2 b3 : Byte) : Word := b3 ++ b2 ++ b1 ++ b0

/-- The byte at offset `k` (0 to 3) of a word in memory: bits `8k+7 : 8k` (R41). -/
def byteOfWord (w : Word) (k : Nat) : Byte := w.extractLsb' (8 * k) 8

/-- Decoding of bytes as memory holds them: the first four are the instruction, the rest is handed on (R41, R60). -/
def decode : List Byte → Except DecodeError (Instr × List Byte)
  | b0 :: b1 :: b2 :: b3 :: rest =>
    match decodeWord (wordOfBytes b0 b1 b2 b3) with
    | .ok i => .ok (i, rest)
    | .error e => .error e
  | _ => .error .truncated

/-! ## The encoder, from the same encoding figures -/

/-- R-type (R63). -/
def encodeR (funct7 : BitVec 7) (rs2 rs1 : Reg) (funct3 : BitVec 3) (rd : Reg) (opcode : BitVec 7) : Word :=
  funct7 ++ rs2 ++ rs1 ++ funct3 ++ rd ++ opcode

/-- I-type with a 12-bit immediate (R64 a, R67). -/
def encodeI (imm : BitVec 12) (rs1 : Reg) (funct3 : BitVec 3) (rd : Reg) (opcode : BitVec 7) : Word :=
  imm ++ rs1 ++ funct3 ++ rd ++ opcode

/-- S-type with the S-immediate (R65, R68). -/
def encodeS (imm : BitVec 12) (rs2 rs1 : Reg) (funct3 : BitVec 3) (opcode : BitVec 7) : Word :=
  imm.extractLsb' 5 7 ++ rs2 ++ rs1 ++ funct3 ++ imm.extractLsb' 0 5 ++ opcode

/-- S-type with the B-immediate (R65, R69). -/
def encodeB (imm : BitVec 13) (rs2 rs1 : Reg) (funct3 : BitVec 3) (opcode : BitVec 7) : Word :=
  imm.extractLsb' 12 1 ++ imm.extractLsb' 5 6 ++ rs2 ++ rs1 ++ funct3 ++ imm.extractLsb' 1 4 ++ imm.extractLsb' 11 1 ++ opcode

/-- U-type with the U-immediate (R66, R70). -/
def encodeU (imm : BitVec 20) (rd : Reg) (opcode : BitVec 7) : Word := imm ++ rd ++ opcode

/-- U-type with the J-immediate (R66, R71). -/
def encodeJ (imm : BitVec 21) (rd : Reg) (opcode : BitVec 7) : Word :=
  imm.extractLsb' 20 1 ++ imm.extractLsb' 1 10 ++ imm.extractLsb' 11 1 ++ imm.extractLsb' 12 8 ++ rd ++ opcode

/-- The word of a well-formed instruction (R63 to R73). -/
def encode : Instr → Word
  | .add rd rs1 rs2 => encodeR 0b0000000#7 rs2 rs1 0b000#3 rd 0b0110011#7
  | .sub rd rs1 rs2 => encodeR 0b0100000#7 rs2 rs1 0b000#3 rd 0b0110011#7
  | .and rd rs1 rs2 => encodeR 0b0000000#7 rs2 rs1 0b111#3 rd 0b0110011#7
  | .or rd rs1 rs2 => encodeR 0b0000000#7 rs2 rs1 0b110#3 rd 0b0110011#7
  | .xor rd rs1 rs2 => encodeR 0b0000000#7 rs2 rs1 0b100#3 rd 0b0110011#7
  | .slt rd rs1 rs2 => encodeR 0b0000000#7 rs2 rs1 0b010#3 rd 0b0110011#7
  | .sltu rd rs1 rs2 => encodeR 0b0000000#7 rs2 rs1 0b011#3 rd 0b0110011#7
  | .sra rd rs1 rs2 => encodeR 0b0100000#7 rs2 rs1 0b101#3 rd 0b0110011#7
  | .srl rd rs1 rs2 => encodeR 0b0000000#7 rs2 rs1 0b101#3 rd 0b0110011#7
  | .sll rd rs1 rs2 => encodeR 0b0000000#7 rs2 rs1 0b001#3 rd 0b0110011#7
  | .addi rd rs1 imm => encodeI imm rs1 0b000#3 rd 0b0010011#7
  | .andi rd rs1 imm => encodeI imm rs1 0b111#3 rd 0b0010011#7
  | .ori rd rs1 imm => encodeI imm rs1 0b110#3 rd 0b0010011#7
  | .xori rd rs1 imm => encodeI imm rs1 0b100#3 rd 0b0010011#7
  | .slti rd rs1 imm => encodeI imm rs1 0b010#3 rd 0b0010011#7
  | .sltiu rd rs1 imm => encodeI imm rs1 0b011#3 rd 0b0010011#7
  | .srai rd rs1 shamt => encodeR 0b0100000#7 shamt rs1 0b101#3 rd 0b0010011#7
  | .srli rd rs1 shamt => encodeR 0b0000000#7 shamt rs1 0b101#3 rd 0b0010011#7
  | .slli rd rs1 shamt => encodeR 0b0000000#7 shamt rs1 0b001#3 rd 0b0010011#7
  | .lui rd imm => encodeU imm rd 0b0110111#7
  | .auipc rd imm => encodeU imm rd 0b0010111#7
  | .lw rd rs1 imm => encodeI imm rs1 0b010#3 rd 0b0000011#7
  | .sw rs2 rs1 imm => encodeS imm rs2 rs1 0b010#3 0b0100011#7
  | .jal rd imm => encodeJ imm rd 0b1101111#7
  | .jalr rd rs1 imm => encodeI imm rs1 0b000#3 rd 0b1100111#7
  | .beq rs1 rs2 imm => encodeB imm rs2 rs1 0b000#3 0b1100011#7
  | .bne rs1 rs2 imm => encodeB imm rs2 rs1 0b001#3 0b1100011#7
  | .blt rs1 rs2 imm => encodeB imm rs2 rs1 0b100#3 0b1100011#7
  | .bge rs1 rs2 imm => encodeB imm rs2 rs1 0b101#3 0b1100011#7
  | .bltu rs1 rs2 imm => encodeB imm rs2 rs1 0b110#3 0b1100011#7
  | .bgeu rs1 rs2 imm => encodeB imm rs2 rs1 0b111#3 0b1100011#7

/-- The bytes of an instruction as memory holds them, lowest address first (R41). -/
def encodeBytes (i : Instr) : List Byte :=
  [byteOfWord (encode i) 0, byteOfWord (encode i) 1, byteOfWord (encode i) 2, byteOfWord (encode i) 3]

/-! ## The opcode map as masks and matches (R73) -/

/-- The rows of rule R73 in its order, each as (mask, match): a word is the row's instruction exactly when
`inst & mask = match`. The decoder does not read this table; statements compare the decoder with it. -/
def opcodeMap : List (Word × Word) := [
  (0xFE00707F#32, 0x00000033#32),
  (0xFE00707F#32, 0x40000033#32),
  (0xFE00707F#32, 0x00007033#32),
  (0xFE00707F#32, 0x00006033#32),
  (0xFE00707F#32, 0x00004033#32),
  (0xFE00707F#32, 0x00002033#32),
  (0xFE00707F#32, 0x00003033#32),
  (0xFE00707F#32, 0x40005033#32),
  (0xFE00707F#32, 0x00005033#32),
  (0xFE00707F#32, 0x00001033#32),
  (0x0000707F#32, 0x00000013#32),
  (0x0000707F#32, 0x00007013#32),
  (0x0000707F#32, 0x00006013#32),
  (0x0000707F#32, 0x00004013#32),
  (0x0000707F#32, 0x00002013#32),
  (0x0000707F#32, 0x00003013#32),
  (0xFE00707F#32, 0x40005013#32),
  (0xFE00707F#32, 0x00005013#32),
  (0xFE00707F#32, 0x00001013#32),
  (0x0000007F#32, 0x00000037#32),
  (0x0000007F#32, 0x00000017#32),
  (0x0000707F#32, 0x00002003#32),
  (0x0000707F#32, 0x00002023#32),
  (0x0000007F#32, 0x0000006F#32),
  (0x0000707F#32, 0x00000067#32),
  (0x0000707F#32, 0x00000063#32),
  (0x0000707F#32, 0x00001063#32),
  (0x0000707F#32, 0x00004063#32),
  (0x0000707F#32, 0x00005063#32),
  (0x0000707F#32, 0x00006063#32),
  (0x0000707F#32, 0x00007063#32)]

/-- The index in `opcodeMap` of an instruction's row (R73). -/
def Instr.rowIndex : Instr → Fin 31
  | .add _ _ _ => 0
  | .sub _ _ _ => 1
  | .and _ _ _ => 2
  | .or _ _ _ => 3
  | .xor _ _ _ => 4
  | .slt _ _ _ => 5
  | .sltu _ _ _ => 6
  | .sra _ _ _ => 7
  | .srl _ _ _ => 8
  | .sll _ _ _ => 9
  | .addi _ _ _ => 10
  | .andi _ _ _ => 11
  | .ori _ _ _ => 12
  | .xori _ _ _ => 13
  | .slti _ _ _ => 14
  | .sltiu _ _ _ => 15
  | .srai _ _ _ => 16
  | .srli _ _ _ => 17
  | .slli _ _ _ => 18
  | .lui _ _ => 19
  | .auipc _ _ => 20
  | .lw _ _ _ => 21
  | .sw _ _ _ => 22
  | .jal _ _ => 23
  | .jalr _ _ _ => 24
  | .beq _ _ _ => 25
  | .bne _ _ _ => 26
  | .blt _ _ _ => 27
  | .bge _ _ _ => 28
  | .bltu _ _ _ => 29
  | .bgeu _ _ _ => 30

/-- The (mask, match) row of an instruction (R73). -/
def Instr.row (i : Instr) : Word × Word := opcodeMap[i.rowIndex]

/-! ## The host's reading of one table word -/

/-- What the decoder reads from an instruction whose bits are `w`, `nbits` of them given and the rest of the word zero:
the word is laid out as memory holds it and handed to `decode`. No instruction is longer than 32 bits (R60). -/
def decodeTableWord (nbits w : Nat) : Option Instr :=
  if nbits ≤ 32 then
    let inst : Word := BitVec.ofNat 32 (w % 2 ^ nbits)
    match decode [byteOfWord inst 0, byteOfWord inst 1, byteOfWord inst 2, byteOfWord inst 3] with
    | .ok (i, _) => some i
    | .error _ => none
  else none

end Sys2Proof
end

