-- ==== Sys2Proof/Config.lean ====
section
/-! DEFINITION. The parameters the spec leaves OPEN (rule R4) and the one free value of the model (rule R55). -/

namespace Sys2Proof

/-- The configuration of rule R4. It is fixed for a machine: no step changes it. A state carries it, so that
a statement about every state is a statement about every configuration (notes/assumptions/1.md). -/
structure Params where
  /-- `MEM_BASE`: the first byte address that exists (R4, R45). -/
  memBase : Nat
  /-- `MEM_SIZE`: how many bytes exist (R4, R45). -/
  memSize : Nat
  /-- `RESET_PC`: the value of PC at reset (R4, R33). -/
  resetPc : Word
  /-- `HALT_PC`: the address at which a run is defined to end (R4, R192). -/
  haltPc : Word
  /-- `IFETCH_COHERENT`: whether a fetch may read a word stored by SW since reset (R4, R48). -/
  ifetchCoherent : Bool
  deriving DecidableEq, Repr

/-- The constraints the spec puts on the parameters: `MEM_BASE` and `MEM_SIZE` multiples of 4 inside the 32-bit
address space, `RESET_PC` a multiple of 4 at an existing word, `HALT_PC` a multiple of 4 (R4, R33, R192). -/
def Params.wf (p : Params) : Bool :=
  decide (p.memBase % 4 = 0) && decide (p.memSize % 4 = 0) && decide (p.memBase + p.memSize ≤ 2 ^ 32)
    && decide (p.resetPc.toNat % 4 = 0) && decide (p.memBase ≤ p.resetPc.toNat)
    && decide (p.resetPc.toNat + 4 ≤ p.memBase + p.memSize) && decide (p.haltPc.toNat % 4 = 0)

/-- The configuration of `State.reset`. DESIGN CHOICE (notes/assumptions/1.md), unsafe: the spec leaves every value OPEN;
the first three and the last are the common configuration of the spec's own programs (95_test_vectors.md section 3),
`HALT_PC` is a word outside that memory. -/
def Config.resetParams : Params where
  memBase := 0
  memSize := 0x10000
  resetPc := 0x00001000#32
  haltPc := 0xFFFFFFFC#32
  ifetchCoherent := false

/-- `MEM_INIT` at the bytes that no launch image and no store has fixed: an arbitrary value for each byte address, the
same at every read until the byte is stored to (R55, U5). A FREE VALUE: it has no body, so no proof can rest on what it is.
DESIGN CHOICE of form (notes/assumptions/3.md), safe. -/
opaque Config.memInitByte : Nat → Byte

end Sys2Proof
end

