-- ==== Sys2Proof/Machine/State.lean ====
section
/-! DEFINITION. The state of the machine, its faults, its refusals, and the state after reset (spec files 10_state.md,
60_exceptions.md and 70_reset_and_hazards.md). -/

namespace Sys2Proof.Machine

/-- The eight faults of rule R171, each with the value it records. `State.raise` puts one into the faulted mark; `step` on a
marked state answers `.fault` with it, for no further instruction is executed (R170). Stopping here is SAFE for each: the
spec itself stops the machine, and its decisions D8, D9, D10, D6 and D12 err toward unprovable. -/
inductive Fault where
  /-- JAL, JALR or a taken branch whose target is not a multiple of 4; records the target. Safe. -/
  | instructionAddressMisaligned (target : Word)
  /-- The fetch of any instruction when pc is not the address of an existing word; records pc. Safe. -/
  | instructionAccessFault (pc : Word)
  /-- The fetch of any instruction from a word stored by SW, unless `IFETCH_COHERENT`; records pc. Safe. -/
  | fetchAfterStore (pc : Word)
  /-- Decoding of a word that matches no row of the opcode map; records the word. Safe. -/
  | illegalInstruction (inst : Word)
  /-- LW at an effective address that is not a multiple of 4; records it. Safe. -/
  | loadAddressMisaligned (ea : Word)
  /-- LW at an aligned address where no word exists; records it. Safe. -/
  | loadAccessFault (ea : Word)
  /-- SW at an effective address that is not a multiple of 4; records it. Safe. -/
  | storeAddressMisaligned (ea : Word)
  /-- SW at an aligned address where no word exists; records it. Safe. -/
  | storeAccessFault (ea : Word)
  deriving DecidableEq, Repr

/-- Why there is no step that is not a fault. -/
inductive Refusal where
  /-- An instruction of the table without a meaning, by its mnemonic. Raised by `exec` for such an arm; there is none. Safe. -/
  | notModelled (mnemonic : String)
  /-- Raised by `step` when `pc = HALT_PC`: the run has ended and the word there is not fetched (R192). Safe. -/
  | runEnded
  deriving DecidableEq, Repr

/-- Memory as byte cells at strictly rising addresses (R31, R40). A byte that is not listed has been fixed by no launch image
and by no store: as an entry it reads as none, and the machine sees `Config.memInitByte` there (R55, notes/assumptions/3.md). -/
abbrev Memory := List Host.Cell

/-- The whole state: 31 registers, PC and memory (10_state.md), the two pieces of bookkeeping of rule R32, and the
configuration of rule R4 as a field of the model's own (notes/assumptions/1.md). -/
structure State where
  /-- `R[1]` to `R[31]`; entry `k` is `R[k+1]`. `R[0]` is a constant and not state (R21, R22). -/
  regs : Vector Word 31
  /-- `PC`: the address of the instruction being executed (R24). -/
  pc : Word
  /-- The bytes of memory that an image or a store has fixed (R31). -/
  mem : Memory
  /-- The word addresses SW has written since reset, strictly rising (R32, R47, R48). -/
  stored : List Nat
  /-- The faulted mark with the fault's name and value; none while the machine runs (R32, R170). -/
  faulted : Option Fault
  /-- The configuration; no instruction reads it as a value or changes it (R4). -/
  params : Params
  deriving DecidableEq, Repr

/-- What the host chooses before reset (R203): the configuration, `REG_INIT` and the memory image. -/
structure Launch where
  params : Params
  regInit : Vector Word 31
  image : Memory
  deriving DecidableEq, Repr

/-- Reset: every piece of state takes the value of the table of rule R33 (R190). -/
def State.launch (l : Launch) : State where
  regs := l.regInit
  pc := l.params.resetPc
  mem := l.image
  stored := []
  faulted := none
  params := l.params

/-- The launch of `State.reset`: the configuration of notes/assumptions/1.md, registers zero (notes/assumptions/2.md), no image.
DESIGN CHOICE, unsafe: the spec leaves `REG_INIT` and the configuration OPEN. -/
def Launch.unloaded : Launch where
  params := Config.resetParams
  regInit := Vector.replicate 31 0#32
  image := []

/-- The machine right after reset, nothing loaded (R33, R190). -/
def State.reset : State := State.launch Launch.unloaded

end Sys2Proof.Machine
end

