-- ==== Sys2Proof/Machine/Ops.lean ====
section
/-! DEFINITION. The named operations over memory, registers and PC that every meaning uses, and taking a fault
(spec rules R10 to R13, R22, R25, R41 to R48, R170). -/

namespace Sys2Proof.Machine

/-! ## Memory as data -/

/-- The entry at a byte address, if the image or a store has fixed that byte. -/
def Memory.find : Memory → Nat → Option Byte
  | [], _ => none
  | (k, v) :: m, a => if k = a then some v else Memory.find m a

/-- Fix the byte at an address. -/
def Memory.put : Memory → Nat → Byte → Memory
  | [], a, b => [(a, b)]
  | (k, v) :: m, a, b =>
    if a < k then (a, b) :: (k, v) :: m
    else if a = k then (a, b) :: m
    else (k, v) :: Memory.put m a b

/-- The canonical form: addresses strictly rising. An unlisted address reads as none, so no entry equals that. -/
def Memory.wf (m : Memory) : Bool := decide (m.Pairwise fun p q => p.1 < q.1)

/-- Every listed byte lies in `lo .. hi - 1`. -/
def Memory.within (m : Memory) (lo hi : Nat) : Bool := m.all fun p => decide (lo ≤ p.1) && decide (p.1 < hi)

/-- Fix the four bytes of a word, little-endian (R41). -/
def Memory.putWord (m : Memory) (a : Nat) (v : Word) : Memory :=
  (((m.put a (byteOfWord v 0)).put (a + 1) (byteOfWord v 1)).put (a + 2) (byteOfWord v 2)).put (a + 3) (byteOfWord v 3)

/-- A set of addresses as a strictly rising list: put one in. -/
def addrInsert : List Nat → Nat → List Nat
  | [], a => [a]
  | k :: l, a => if a < k then a :: k :: l else if a = k then k :: l else k :: addrInsert l a

/-- A set of addresses: take one out. -/
def addrErase (l : List Nat) (a : Nat) : List Nat := l.filter fun k => decide (k ≠ a)

/-- The canonical form of a set of addresses: strictly rising. -/
def addrWf (l : List Nat) : Bool := decide (l.Pairwise fun p q => p < q)

/-- The byte the machine holds at an address: what an image or a store has fixed, else `MEM_INIT`'s arbitrary value,
the same at every read (R47, R55). -/
def State.byteAt (s : State) (a : Nat) : Byte := (Memory.find s.mem a).getD (Config.memInitByte a)

/-- The word at a byte address, little-endian (R41). -/
def State.wordAt (s : State) (a : Word) : Word :=
  wordOfBytes (s.byteAt a.toNat) (s.byteAt (a.toNat + 1)) (s.byteAt (a.toNat + 2)) (s.byteAt (a.toNat + 3))

/-! ## Registers and PC -/

/-- `x[r]`: register 0 reads zero, any other its content (R10, R22). -/
def State.x (s : State) (r : Reg) : Word :=
  if r = 0#5 then 0x00000000#32 else s.regs[r.toNat - 1]'(by have := r.isLt; omega)

/-- `x[r] <- v`: discarded for register 0 (R10, R22). -/
def State.setX (s : State) (r : Reg) (v : Word) : State :=
  if r = 0#5 then s else { s with regs := s.regs.set (r.toNat - 1) v (by have := r.isLt; omega) }

/-- `pc <- t` (R13). -/
def State.setPc (s : State) (t : Word) : State := { s with pc := t }

/-- The address of the next word, modulo 2^32 (R25, R27). -/
def State.nextPc (s : State) : Word := s.pc + 4#32

/-! ## Faults

Taking a fault is one operation, and there is no return from one: faults are terminal, nothing is saved, no handler exists
(R170, R174, R175). -/

/-- `raise <Name>(info)`: the faulted mark records the fault and nothing else changes (R12, R170). A next state and not a stop,
so that the mark the spec gives the machine is held; the next `step` then answers `.fault` (notes/assumptions/5.md). -/
def State.raise (s : State) (f : Fault) : Host.Outcome State Fault Refusal := .next { s with faulted := some f }

/-! ## Ends of an instruction -/

/-- The end of an instruction that writes one register and goes on at the next word (R13, R25). -/
def State.retire (s : State) (rd : Reg) (v : Word) : Host.Outcome State Fault Refusal :=
  .next ((s.setX rd v).setPc s.nextPc)

/-- Bits 1:0 of an address are zero (R42, R46). -/
def aligned (a : Word) : Bool := decide (a.extractLsb' 0 2 = 0b00#2)

/-- The end of a jump: the target is checked first, then the link is written and PC set (R150 to R152). -/
def State.jump (s : State) (rd : Reg) (target : Word) : Host.Outcome State Fault Refusal :=
  if aligned target then .next ((s.setX rd s.nextPc).setPc target)
  else s.raise (.instructionAddressMisaligned target)

/-- The end of a branch: the target is checked only when the branch is taken (R160). -/
def State.branch (s : State) (taken : Bool) (target : Word) : Host.Outcome State Fault Refusal :=
  if taken then
    if aligned target then .next (s.setPc target)
    else s.raise (.instructionAddressMisaligned target)
  else .next (s.setPc s.nextPc)

/-! ## The three access primitives (R47) -/

/-- `exists(addr)` (R45, R47). -/
def State.wordExists (s : State) (a : Word) : Bool :=
  decide (s.params.memBase ≤ a.toNat) && decide (a.toNat + 4 ≤ s.params.memBase + s.params.memSize)

/-- `MemRead(addr, 4)`: misalignment before existence (R42, R45, R47). -/
def State.memRead (s : State) (a : Word) : Except Fault Word :=
  if !aligned a then .error (.loadAddressMisaligned a)
  else if !s.wordExists a then .error (.loadAccessFault a)
  else .ok (s.wordAt a)

/-- The word at `a` becomes `v` and `a` joins the `stored` set (R47). -/
def State.storeWord (s : State) (a v : Word) : State :=
  { s with mem := Memory.putWord s.mem a.toNat v, stored := addrInsert s.stored a.toNat }

/-- `MemWrite(addr, 4, v)`: misalignment before existence (R42, R45, R47). -/
def State.memWrite (s : State) (a v : Word) : Except Fault State :=
  if !aligned a then .error (.storeAddressMisaligned a)
  else if !s.wordExists a then .error (.storeAccessFault a)
  else .ok (s.storeWord a v)

/-- `Fetch(addr)`: existence first, then the `stored` set unless `IFETCH_COHERENT` (R47, R48, R172). -/
def State.fetch (s : State) (a : Word) : Except Fault Word :=
  if !s.wordExists a then .error (.instructionAccessFault a)
  else if !s.params.ifetchCoherent && s.stored.contains a.toNat then .error (.fetchAfterStore a)
  else .ok (s.wordAt a)

/-- A word placed from outside the machine, as a launch image would hold it (R203): its bytes are fixed and it does not count
as stored by SW (R32, R48). -/
def State.loadWord (s : State) (a v : Word) : State :=
  { s with mem := Memory.putWord s.mem a.toNat v, stored := addrErase s.stored a.toNat }

/-- The launch state the spec asks for: parameters in their ranges (R4), the image in canonical form and inside memory
(R31, R33). -/
def Launch.wf (l : Launch) : Bool :=
  l.params.wf && Memory.wf l.image && Memory.within l.image l.params.memBase (l.params.memBase + l.params.memSize)

end Sys2Proof.Machine
end

