-- ==== Sys2Proof/Machine/Operands.lean ====
section
/-! DEFINITION. The operand forms: immediates as 32-bit values (spec rules R9, R67 to R72), shifts and their amounts (R8, R101),
effective addresses (R140) and targets (R151, R152, R160). -/

namespace Sys2Proof.Machine

/-- `sext_32` of an immediate (R9). -/
def sext {n : Nat} (imm : BitVec n) : Word := imm.signExtend 32

/-- The U-immediate's value: the field in bits 31:12, zeros below (R70). -/
def upper (imm : BitVec 20) : Word := imm ++ 0x000#12

/-- The amount of a shift by register: bits 4:0 of the register, and nothing else of it (R101). -/
def shiftAmount (v : Word) : BitVec 5 := v.extractLsb' 0 5

/-- `a << n` (R8). -/
def shiftLeft (a : Word) (n : BitVec 5) : Word := a <<< n.toNat

/-- `a >> n`, the logical right shift (R8). -/
def shiftRightLogical (a : Word) (n : BitVec 5) : Word := a >>> n.toNat

/-- `a >>> n`, the arithmetic right shift (R8). -/
def shiftRightArith (a : Word) (n : BitVec 5) : Word := a.sshiftRight n.toNat

/-- The effective address of LW and SW, modulo 2^32 (R54, R140). -/
def State.effAddr (s : State) (rs1 : Reg) (imm : BitVec 12) : Word := s.x rs1 + sext imm

/-- The target of JAL: relative to the JAL itself, modulo 2^32 (R27, R151). -/
def State.jalTarget (s : State) (imm : BitVec 21) : Word := s.pc + sext imm

/-- The target of JALR: bit 0 cleared after the addition, the register read before the link is written (R152). -/
def State.jalrTarget (s : State) (rs1 : Reg) (imm : BitVec 12) : Word := (s.x rs1 + sext imm) &&& 0xFFFFFFFE#32

/-- The target of a branch: relative to the branch itself, modulo 2^32 (R27, R160). -/
def State.branchTarget (s : State) (imm : BitVec 13) : Word := s.pc + sext imm

end Sys2Proof.Machine
end

