-- ==== Sys2Proof/Machine/Branch.lean ====
section
/-! DEFINITION. Conditional branches (spec rules R160 to R166). -/

namespace Sys2Proof.Machine

/-- BEQ (R161). -/
def execBeq (rs1 rs2 : Reg) (imm : BitVec 13) (s : State) : Host.Outcome State Fault Refusal :=
  s.branch (eqWord (s.x rs1) (s.x rs2)) (s.branchTarget imm)

/-- BNE (R162). -/
def execBne (rs1 rs2 : Reg) (imm : BitVec 13) (s : State) : Host.Outcome State Fault Refusal :=
  s.branch (neWord (s.x rs1) (s.x rs2)) (s.branchTarget imm)

/-- BLT (R163). -/
def execBlt (rs1 rs2 : Reg) (imm : BitVec 13) (s : State) : Host.Outcome State Fault Refusal :=
  s.branch (ltSigned (s.x rs1) (s.x rs2)) (s.branchTarget imm)

/-- BGE (R164). -/
def execBge (rs1 rs2 : Reg) (imm : BitVec 13) (s : State) : Host.Outcome State Fault Refusal :=
  s.branch (geSigned (s.x rs1) (s.x rs2)) (s.branchTarget imm)

/-- BLTU (R165). -/
def execBltu (rs1 rs2 : Reg) (imm : BitVec 13) (s : State) : Host.Outcome State Fault Refusal :=
  s.branch (ltUnsigned (s.x rs1) (s.x rs2)) (s.branchTarget imm)

/-- BGEU (R166). -/
def execBgeu (rs1 rs2 : Reg) (imm : BitVec 13) (s : State) : Host.Outcome State Fault Refusal :=
  s.branch (geUnsigned (s.x rs1) (s.x rs2)) (s.branchTarget imm)

end Sys2Proof.Machine
end

