-- ==== Sys2Proof/Machine/Jump.lean ====
section
/-! DEFINITION. Unconditional jumps (spec rules R150 to R152). -/

namespace Sys2Proof.Machine

/-- JAL (R151). -/
def execJal (rd : Reg) (imm : BitVec 21) (s : State) : Host.Outcome State Fault Refusal :=
  s.jump rd (s.jalTarget imm)

/-- JALR (R152): the target is computed from the register before the link is written, also when `rd = rs1`. -/
def execJalr (rd rs1 : Reg) (imm : BitVec 12) (s : State) : Host.Outcome State Fault Refusal :=
  s.jump rd (s.jalrTarget rs1 imm)

end Sys2Proof.Machine
end

