-- ==== Sys2Proof/Machine/LoadStore.lean ====
section
/-! DEFINITION. Memory instructions (spec rules R140 to R142). -/

namespace Sys2Proof.Machine

/-- LW (R141): with `rd = 0` the access is still made and can fault. -/
def execLw (rd rs1 : Reg) (imm : BitVec 12) (s : State) : Host.Outcome State Fault Refusal :=
  match s.memRead (s.effAddr rs1 imm) with
  | .ok v => s.retire rd v
  | .error f => s.raise f

/-- SW (R142). -/
def execSw (rs2 rs1 : Reg) (imm : BitVec 12) (s : State) : Host.Outcome State Fault Refusal :=
  match s.memWrite (s.effAddr rs1 imm) (s.x rs2) with
  | .ok t => .next (t.setPc s.nextPc)
  | .error f => s.raise f

end Sys2Proof.Machine
end

