-- ==== Sys2Proof/Machine/RegImm.lean ====
section
/-! DEFINITION. Register-immediate arithmetic (spec rules R120 to R132). -/

namespace Sys2Proof.Machine

/-- ADDI (R122). -/
def execAddi (rd rs1 : Reg) (imm : BitVec 12) (s : State) : Host.Outcome State Fault Refusal :=
  s.retire rd (s.x rs1 + sext imm)

/-- ANDI (R123). -/
def execAndi (rd rs1 : Reg) (imm : BitVec 12) (s : State) : Host.Outcome State Fault Refusal :=
  s.retire rd (s.x rs1 &&& sext imm)

/-- ORI (R124). -/
def execOri (rd rs1 : Reg) (imm : BitVec 12) (s : State) : Host.Outcome State Fault Refusal :=
  s.retire rd (s.x rs1 ||| sext imm)

/-- XORI (R125). -/
def execXori (rd rs1 : Reg) (imm : BitVec 12) (s : State) : Host.Outcome State Fault Refusal :=
  s.retire rd (s.x rs1 ^^^ sext imm)

/-- SLTI (R126). -/
def execSlti (rd rs1 : Reg) (imm : BitVec 12) (s : State) : Host.Outcome State Fault Refusal :=
  s.retire rd (bool32 (ltSigned (s.x rs1) (sext imm)))

/-- SLTIU (R127): the immediate is sign-extended, then read as unsigned. -/
def execSltiu (rd rs1 : Reg) (imm : BitVec 12) (s : State) : Host.Outcome State Fault Refusal :=
  s.retire rd (bool32 (ltUnsigned (s.x rs1) (sext imm)))

/-- SRAI (R128). -/
def execSrai (rd rs1 : Reg) (shamt : BitVec 5) (s : State) : Host.Outcome State Fault Refusal :=
  s.retire rd (shiftRightArith (s.x rs1) shamt)

/-- SRLI (R129). -/
def execSrli (rd rs1 : Reg) (shamt : BitVec 5) (s : State) : Host.Outcome State Fault Refusal :=
  s.retire rd (shiftRightLogical (s.x rs1) shamt)

/-- SLLI (R130). -/
def execSlli (rd rs1 : Reg) (shamt : BitVec 5) (s : State) : Host.Outcome State Fault Refusal :=
  s.retire rd (shiftLeft (s.x rs1) shamt)

/-- LUI (R131): no register is read. -/
def execLui (rd : Reg) (imm : BitVec 20) (s : State) : Host.Outcome State Fault Refusal :=
  s.retire rd (upper imm)

/-- AUIPC (R132): pc is the address of the AUIPC itself. -/
def execAuipc (rd : Reg) (imm : BitVec 20) (s : State) : Host.Outcome State Fault Refusal :=
  s.retire rd (s.pc + upper imm)

end Sys2Proof.Machine
end

