-- ==== Sys2Proof/Machine/RegReg.lean ====
section
/-! DEFINITION. Register-register arithmetic (spec rules R100 to R112). -/

namespace Sys2Proof.Machine

/-- ADD (R102). -/
def execAdd (rd rs1 rs2 : Reg) (s : State) : Host.Outcome State Fault Refusal :=
  s.retire rd (s.x rs1 + s.x rs2)

/-- SUB (R103). -/
def execSub (rd rs1 rs2 : Reg) (s : State) : Host.Outcome State Fault Refusal :=
  s.retire rd (s.x rs1 - s.x rs2)

/-- AND (R104). -/
def execAnd (rd rs1 rs2 : Reg) (s : State) : Host.Outcome State Fault Refusal :=
  s.retire rd (s.x rs1 &&& s.x rs2)

/-- OR (R105). -/
def execOr (rd rs1 rs2 : Reg) (s : State) : Host.Outcome State Fault Refusal :=
  s.retire rd (s.x rs1 ||| s.x rs2)

/-- XOR (R106). -/
def execXor (rd rs1 rs2 : Reg) (s : State) : Host.Outcome State Fault Refusal :=
  s.retire rd (s.x rs1 ^^^ s.x rs2)

/-- SLT (R107). -/
def execSlt (rd rs1 rs2 : Reg) (s : State) : Host.Outcome State Fault Refusal :=
  s.retire rd (bool32 (ltSigned (s.x rs1) (s.x rs2)))

/-- SLTU (R108). -/
def execSltu (rd rs1 rs2 : Reg) (s : State) : Host.Outcome State Fault Refusal :=
  s.retire rd (bool32 (ltUnsigned (s.x rs1) (s.x rs2)))

/-- SRA (R109). -/
def execSra (rd rs1 rs2 : Reg) (s : State) : Host.Outcome State Fault Refusal :=
  s.retire rd (shiftRightArith (s.x rs1) (shiftAmount (s.x rs2)))

/-- SRL (R110). -/
def execSrl (rd rs1 rs2 : Reg) (s : State) : Host.Outcome State Fault Refusal :=
  s.retire rd (shiftRightLogical (s.x rs1) (shiftAmount (s.x rs2)))

/-- SLL (R111). -/
def execSll (rd rs1 rs2 : Reg) (s : State) : Host.Outcome State Fault Refusal :=
  s.retire rd (shiftLeft (s.x rs1) (shiftAmount (s.x rs2)))

end Sys2Proof.Machine
end

