-- ==== Sys2Proof/Machine/Step.lean ====
section
/-! DEFINITION. One step of the machine (spec rules R192, R193) and the host's placing of one instruction. -/

namespace Sys2Proof.Machine

/-- One step (R193): defined when the machine is not faulted and `pc` is not `HALT_PC`. A faulted machine executes nothing
more and answers its fault (R170); at `HALT_PC` the run has ended and the word there is not fetched (R192,
notes/assumptions/6.md). A fault of the fetch or of decoding is taken like any other (R171, R172). -/
def step (s : State) : Host.Outcome State Fault Refusal :=
  match s.faulted with
  | some f => .fault f
  | none =>
    if s.pc = s.params.haltPc then .refused .runEnded
    else
      match s.fetch s.pc with
      | .error f => s.raise f
      | .ok w =>
        match decodeWord w with
        | .error _ => s.raise (.illegalInstruction w)
        | .ok i => exec i s

/-- The instruction whose bits are `w` (`nbits` of them, the rest zero) stored at PC, where `step` fetches, as a launch image
would hold it (R203, notes/assumptions/4.md). Nothing else changes, but that the word does not count as stored by SW. -/
def State.withFetchWord (s : State) (nbits w : Nat) : State :=
  s.loadWord s.pc (BitVec.ofNat 32 (w % 2 ^ nbits))

end Sys2Proof.Machine
end

