-- ==== Sys2Proof/Safety.lean ====
section
/-! DEFINITION. The terms that statements use: running, ended and faulted states, the invariant of the machine, what an
instruction reads and writes (spec rule R23), and when each fault is raised (rule R171). -/

namespace Sys2Proof.Machine

/-! ## Where a machine stands (R170, R192, R193) -/

/-- A step is defined: not faulted and not at `HALT_PC` (R193). -/
abbrev State.Running (s : State) : Prop := s.faulted = none ∧ s.pc ≠ s.params.haltPc

/-- The run has ended: at `HALT_PC` and not faulted; a faulted state is never a final state (R170, R192). -/
abbrev State.Ended (s : State) : Prop := s.faulted = none ∧ s.pc = s.params.haltPc

/-- The four bytes at an address exist (R45). -/
abbrev State.Exists (s : State) (a : Word) : Prop :=
  s.params.memBase ≤ a.toNat ∧ a.toNat + 4 ≤ s.params.memBase + s.params.memSize

/-- An address is a multiple of 4 (R42, R46). -/
abbrev IsWordAddress (a : Word) : Prop := a.toNat % 4 = 0

/-- The word at PC can be fetched (R47, R48). -/
abbrev State.Fetchable (s : State) : Prop :=
  s.Exists s.pc ∧ (s.params.ifetchCoherent = true ∨ s.pc.toNat ∉ s.stored)

/-- The word at PC can be fetched and is the instruction `i` (R74, R193). -/
abbrev State.AboutToRun (s : State) (i : Instr) : Prop :=
  s.Fetchable ∧ decodeWord (s.wordAt s.pc) = .ok i

/-! ## The invariant -/

/-- What holds at every launch and after every step: PC is a multiple of 4 (R26), the parameters are in their ranges (R4),
the listed bytes are in canonical form and inside memory (R31), and every address in the `stored` set is that of an existing
word whose four bytes are fixed (R47). -/
structure State.Inv (s : State) : Prop where
  pc_aligned : IsWordAddress s.pc
  params_wf : s.params.wf = true
  mem_wf : Memory.wf s.mem = true
  mem_inside : ∀ c ∈ s.mem, s.params.memBase ≤ c.1 ∧ c.1 < s.params.memBase + s.params.memSize
  stored_wf : addrWf s.stored = true
  stored_words : ∀ a ∈ s.stored, a % 4 = 0 ∧ s.params.memBase ≤ a ∧ a + 4 ≤ s.params.memBase + s.params.memSize
  stored_fixed : ∀ a ∈ s.stored, ∀ k < 4, (Memory.find s.mem (a + k)).isSome = true

/-! ## What an instruction leaves -/

/-- From `s` to `t`, register `rd` takes the value `v` (nothing is written for register 0) and PC becomes `target`; every other
register, every byte of memory, the `stored` set, the faulted mark and the configuration are unchanged. -/
structure WritesRegister (s t : State) (rd : Reg) (v target : Word) : Prop where
  zero : t.x 0#5 = 0x00000000#32
  dest : rd ≠ 0#5 → t.x rd = v
  others : ∀ r, r ≠ rd → t.x r = s.x r
  pc : t.pc = target
  memory : ∀ a, t.byteAt a = s.byteAt a
  stored : t.stored = s.stored
  mark : t.faulted = s.faulted
  params : t.params = s.params

/-- From `s` to `t`, PC becomes `target` and nothing else changes. -/
structure WritesOnlyPc (s t : State) (target : Word) : Prop where
  regs : ∀ r, t.x r = s.x r
  pc : t.pc = target
  memory : ∀ a, t.byteAt a = s.byteAt a
  stored : t.stored = s.stored
  mark : t.faulted = s.faulted
  params : t.params = s.params

/-- From `s` to `t`, the four bytes at `ea` become those of `v`, lowest byte first, `ea` joins the `stored` set and PC moves to
the next word; every other byte, every register, the faulted mark and the configuration are unchanged. -/
structure StoresWord (s t : State) (ea v : Word) : Prop where
  byte0 : t.byteAt ea.toNat = v.extractLsb' 0 8
  byte1 : t.byteAt (ea.toNat + 1) = v.extractLsb' 8 8
  byte2 : t.byteAt (ea.toNat + 2) = v.extractLsb' 16 8
  byte3 : t.byteAt (ea.toNat + 3) = v.extractLsb' 24 8
  others : ∀ a, a < ea.toNat ∨ ea.toNat + 4 ≤ a → t.byteAt a = s.byteAt a
  stored : ∀ a, a ∈ t.stored ↔ a ∈ s.stored ∨ a = ea.toNat
  regs : ∀ r, t.x r = s.x r
  pc : t.pc = s.pc + 4#32
  mark : t.faulted = s.faulted
  params : t.params = s.params

end Sys2Proof.Machine

namespace Sys2Proof

/-! ## What an instruction reads and writes (R23) -/

/-- The general registers an instruction reads (R23). -/
def Instr.sources : Instr → List Reg
  | .add _ rs1 rs2 => [rs1, rs2]
  | .sub _ rs1 rs2 => [rs1, rs2]
  | .and _ rs1 rs2 => [rs1, rs2]
  | .or _ rs1 rs2 => [rs1, rs2]
  | .xor _ rs1 rs2 => [rs1, rs2]
  | .slt _ rs1 rs2 => [rs1, rs2]
  | .sltu _ rs1 rs2 => [rs1, rs2]
  | .sra _ rs1 rs2 => [rs1, rs2]
  | .srl _ rs1 rs2 => [rs1, rs2]
  | .sll _ rs1 rs2 => [rs1, rs2]
  | .addi _ rs1 _ => [rs1]
  | .andi _ rs1 _ => [rs1]
  | .ori _ rs1 _ => [rs1]
  | .xori _ rs1 _ => [rs1]
  | .slti _ rs1 _ => [rs1]
  | .sltiu _ rs1 _ => [rs1]
  | .srai _ rs1 _ => [rs1]
  | .srli _ rs1 _ => [rs1]
  | .slli _ rs1 _ => [rs1]
  | .lui _ _ => []
  | .auipc _ _ => []
  | .lw _ rs1 _ => [rs1]
  | .sw rs2 rs1 _ => [rs1, rs2]
  | .jal _ _ => []
  | .jalr _ rs1 _ => [rs1]
  | .beq rs1 rs2 _ => [rs1, rs2]
  | .bne rs1 rs2 _ => [rs1, rs2]
  | .blt rs1 rs2 _ => [rs1, rs2]
  | .bge rs1 rs2 _ => [rs1, rs2]
  | .bltu rs1 rs2 _ => [rs1, rs2]
  | .bgeu rs1 rs2 _ => [rs1, rs2]

/-- The general register an instruction writes, if it has one (R23). -/
def Instr.dest : Instr → Option Reg
  | .add rd _ _ => some rd
  | .sub rd _ _ => some rd
  | .and rd _ _ => some rd
  | .or rd _ _ => some rd
  | .xor rd _ _ => some rd
  | .slt rd _ _ => some rd
  | .sltu rd _ _ => some rd
  | .sra rd _ _ => some rd
  | .srl rd _ _ => some rd
  | .sll rd _ _ => some rd
  | .addi rd _ _ => some rd
  | .andi rd _ _ => some rd
  | .ori rd _ _ => some rd
  | .xori rd _ _ => some rd
  | .slti rd _ _ => some rd
  | .sltiu rd _ _ => some rd
  | .srai rd _ _ => some rd
  | .srli rd _ _ => some rd
  | .slli rd _ _ => some rd
  | .lui rd _ => some rd
  | .auipc rd _ => some rd
  | .lw rd _ _ => some rd
  | .sw _ _ _ => none
  | .jal rd _ => some rd
  | .jalr rd _ _ => some rd
  | .beq _ _ _ => none
  | .bne _ _ _ => none
  | .blt _ _ _ => none
  | .bge _ _ _ => none
  | .bltu _ _ _ => none
  | .bgeu _ _ _ => none

/-- The same instruction with another destination register, where it has one. -/
def Instr.withDest (r : Reg) : Instr → Instr
  | .add _ rs1 rs2 => .add r rs1 rs2
  | .sub _ rs1 rs2 => .sub r rs1 rs2
  | .and _ rs1 rs2 => .and r rs1 rs2
  | .or _ rs1 rs2 => .or r rs1 rs2
  | .xor _ rs1 rs2 => .xor r rs1 rs2
  | .slt _ rs1 rs2 => .slt r rs1 rs2
  | .sltu _ rs1 rs2 => .sltu r rs1 rs2
  | .sra _ rs1 rs2 => .sra r rs1 rs2
  | .srl _ rs1 rs2 => .srl r rs1 rs2
  | .sll _ rs1 rs2 => .sll r rs1 rs2
  | .addi _ rs1 imm => .addi r rs1 imm
  | .andi _ rs1 imm => .andi r rs1 imm
  | .ori _ rs1 imm => .ori r rs1 imm
  | .xori _ rs1 imm => .xori r rs1 imm
  | .slti _ rs1 imm => .slti r rs1 imm
  | .sltiu _ rs1 imm => .sltiu r rs1 imm
  | .srai _ rs1 shamt => .srai r rs1 shamt
  | .srli _ rs1 shamt => .srli r rs1 shamt
  | .slli _ rs1 shamt => .slli r rs1 shamt
  | .lui _ imm => .lui r imm
  | .auipc _ imm => .auipc r imm
  | .lw _ rs1 imm => .lw r rs1 imm
  | .sw rs2 rs1 imm => .sw rs2 rs1 imm
  | .jal _ imm => .jal r imm
  | .jalr _ rs1 imm => .jalr r rs1 imm
  | .beq rs1 rs2 imm => .beq rs1 rs2 imm
  | .bne rs1 rs2 imm => .bne rs1 rs2 imm
  | .blt rs1 rs2 imm => .blt rs1 rs2 imm
  | .bge rs1 rs2 imm => .bge rs1 rs2 imm
  | .bltu rs1 rs2 imm => .bltu rs1 rs2 imm
  | .bgeu rs1 rs2 imm => .bgeu rs1 rs2 imm

/-- The effective address an instruction loads from: LW's (R23, R140). -/
def Instr.loadAddress (i : Instr) (s : Machine.State) : Option Word :=
  match i with
  | .lw _ rs1 imm => some (s.x rs1 + imm.signExtend 32)
  | _ => none

/-- The effective address an instruction stores to: SW's (R23, R140). -/
def Instr.storeAddress (i : Instr) (s : Machine.State) : Option Word :=
  match i with
  | .sw _ rs1 imm => some (s.x rs1 + imm.signExtend 32)
  | _ => none

/-- The target of a jump, or of a branch that is taken (R151, R152, R160 to R166); none for every other instruction and for a
branch that is not taken. -/
def Instr.takenTarget (i : Instr) (s : Machine.State) : Option Word :=
  match i with
  | .jal _ imm => some (s.pc + imm.signExtend 32)
  | .jalr _ rs1 imm => some ((s.x rs1 + imm.signExtend 32) &&& 0xFFFFFFFE#32)
  | .beq rs1 rs2 imm => if s.x rs1 = s.x rs2 then some (s.pc + imm.signExtend 32) else none
  | .bne rs1 rs2 imm => if s.x rs1 ≠ s.x rs2 then some (s.pc + imm.signExtend 32) else none
  | .blt rs1 rs2 imm => if (s.x rs1).toInt < (s.x rs2).toInt then some (s.pc + imm.signExtend 32) else none
  | .bge rs1 rs2 imm => if (s.x rs2).toInt ≤ (s.x rs1).toInt then some (s.pc + imm.signExtend 32) else none
  | .bltu rs1 rs2 imm => if (s.x rs1).toNat < (s.x rs2).toNat then some (s.pc + imm.signExtend 32) else none
  | .bgeu rs1 rs2 imm => if (s.x rs2).toNat ≤ (s.x rs1).toNat then some (s.pc + imm.signExtend 32) else none
  | _ => none

end Sys2Proof

namespace Sys2Proof.Machine

/-! ## When a fault is raised (R171, R172) -/

/-- The table of rule R171, its column "exactly when" with the value recorded, in the order of rule R172. -/
def State.Raises (s : State) : Fault → Prop
  | .instructionAccessFault a => a = s.pc ∧ ¬ s.Exists s.pc
  | .fetchAfterStore a => a = s.pc ∧ s.Exists s.pc ∧ s.params.ifetchCoherent = false ∧ s.pc.toNat ∈ s.stored
  | .illegalInstruction w => s.Fetchable ∧ w = s.wordAt s.pc ∧ ∀ row ∈ opcodeMap, w &&& row.1 ≠ row.2
  | .instructionAddressMisaligned a => ∃ i, s.AboutToRun i ∧ i.takenTarget s = some a ∧ ¬ IsWordAddress a
  | .loadAddressMisaligned a => ∃ i, s.AboutToRun i ∧ i.loadAddress s = some a ∧ ¬ IsWordAddress a
  | .loadAccessFault a => ∃ i, s.AboutToRun i ∧ i.loadAddress s = some a ∧ IsWordAddress a ∧ ¬ s.Exists a
  | .storeAddressMisaligned a => ∃ i, s.AboutToRun i ∧ i.storeAddress s = some a ∧ ¬ IsWordAddress a
  | .storeAccessFault a => ∃ i, s.AboutToRun i ∧ i.storeAddress s = some a ∧ IsWordAddress a ∧ ¬ s.Exists a

end Sys2Proof.Machine
end

