-- ==== Sys2Proof/Certificates/Slice0/Obligations.lean ====
section
/-! DEFINITION. The statements for the provers. A docstring names the rules a statement formalises, the spec's own decisions (D<n> of
92_eei_decisions.md) it rests on, and the log entry where a part of it is the model's choice. -/

open Sys2Proof Sys2Proof.Machine

/-- R102, R103 (with R6): ADD and SUB complete for every operand; `rd` gets the sum or the difference modulo 2^32 (the wrap is the
spec's decision D4), PC moves to the next word, nothing else changes, no fault. Their encodings (R63) decode to them. -/
def Obligations.AddSubWriteTheWrappedResult : Prop :=
  ∀ (rd rs1 rs2 : Reg) (s : State),
    decodeWord (0b0000000#7 ++ rs2 ++ rs1 ++ 0b000#3 ++ rd ++ 0b0110011#7) = .ok (.add rd rs1 rs2) ∧
    decodeWord (0b0100000#7 ++ rs2 ++ rs1 ++ 0b000#3 ++ rd ++ 0b0110011#7) = .ok (.sub rd rs1 rs2) ∧
    (∃ t v, exec (.add rd rs1 rs2) s = .next t ∧ WritesRegister s t rd v (s.pc + 4#32) ∧
      v.toNat = ((s.x rs1).toNat + (s.x rs2).toNat) % 2 ^ 32) ∧
    (∃ t v, exec (.sub rd rs1 rs2) s = .next t ∧ WritesRegister s t rd v (s.pc + 4#32) ∧
      (v.toNat : Int) = (((s.x rs1).toNat : Int) - ((s.x rs2).toNat : Int)) % 2 ^ 32)

/-- R104, R105, R106: AND, OR and XOR complete for every operand; bit `i` of `rd` is the AND, OR or XOR of the sources' bits `i`, PC
moves to the next word, nothing else changes. Their encodings decode to them. -/
def Obligations.AndOrXorActBitwise : Prop :=
  ∀ (rd rs1 rs2 : Reg) (s : State),
    decodeWord (0b0000000#7 ++ rs2 ++ rs1 ++ 0b111#3 ++ rd ++ 0b0110011#7) = .ok (.and rd rs1 rs2) ∧
    decodeWord (0b0000000#7 ++ rs2 ++ rs1 ++ 0b110#3 ++ rd ++ 0b0110011#7) = .ok (.or rd rs1 rs2) ∧
    decodeWord (0b0000000#7 ++ rs2 ++ rs1 ++ 0b100#3 ++ rd ++ 0b0110011#7) = .ok (.xor rd rs1 rs2) ∧
    (∃ t v, exec (.and rd rs1 rs2) s = .next t ∧ WritesRegister s t rd v (s.pc + 4#32) ∧
      ∀ i < 32, v.getLsbD i = ((s.x rs1).getLsbD i && (s.x rs2).getLsbD i)) ∧
    (∃ t v, exec (.or rd rs1 rs2) s = .next t ∧ WritesRegister s t rd v (s.pc + 4#32) ∧
      ∀ i < 32, v.getLsbD i = ((s.x rs1).getLsbD i || (s.x rs2).getLsbD i)) ∧
    (∃ t v, exec (.xor rd rs1 rs2) s = .next t ∧ WritesRegister s t rd v (s.pc + 4#32) ∧
      ∀ i < 32, v.getLsbD i = ((s.x rs1).getLsbD i ^^ (s.x rs2).getLsbD i))

/-- R107, R108 (with R7): SLT and SLTU complete for every operand; `rd` gets 1 when the first source is less than the second as
signed or as unsigned numbers, else 0 (the values 1 and 0 are the spec's decision D4). Their encodings decode to them. -/
def Obligations.SltSltuWriteTheComparison : Prop :=
  ∀ (rd rs1 rs2 : Reg) (s : State),
    decodeWord (0b0000000#7 ++ rs2 ++ rs1 ++ 0b010#3 ++ rd ++ 0b0110011#7) = .ok (.slt rd rs1 rs2) ∧
    decodeWord (0b0000000#7 ++ rs2 ++ rs1 ++ 0b011#3 ++ rd ++ 0b0110011#7) = .ok (.sltu rd rs1 rs2) ∧
    (∃ t v, exec (.slt rd rs1 rs2) s = .next t ∧ WritesRegister s t rd v (s.pc + 4#32) ∧
      v = if (s.x rs1).toInt < (s.x rs2).toInt then 0x00000001#32 else 0x00000000#32) ∧
    (∃ t v, exec (.sltu rd rs1 rs2) s = .next t ∧ WritesRegister s t rd v (s.pc + 4#32) ∧
      v = if (s.x rs1).toNat < (s.x rs2).toNat then 0x00000001#32 else 0x00000000#32)

/-- R101, R109, R110, R111 (with R8): the three shifts by register complete for every operand; the amount is the second source modulo
32 whatever its upper bits, and every bit of `rd` is as the shift's kind says. Their encodings decode to them. -/
def Obligations.RegisterShiftsUseTheLowFiveBits : Prop :=
  ∀ (rd rs1 rs2 : Reg) (s : State),
    decodeWord (0b0100000#7 ++ rs2 ++ rs1 ++ 0b101#3 ++ rd ++ 0b0110011#7) = .ok (.sra rd rs1 rs2) ∧
    decodeWord (0b0000000#7 ++ rs2 ++ rs1 ++ 0b101#3 ++ rd ++ 0b0110011#7) = .ok (.srl rd rs1 rs2) ∧
    decodeWord (0b0000000#7 ++ rs2 ++ rs1 ++ 0b001#3 ++ rd ++ 0b0110011#7) = .ok (.sll rd rs1 rs2) ∧
    (∃ t v, exec (.sra rd rs1 rs2) s = .next t ∧ WritesRegister s t rd v (s.pc + 4#32) ∧
      ∀ i < 32, v.getLsbD i =
        if i + (s.x rs2).toNat % 32 ≤ 31 then (s.x rs1).getLsbD (i + (s.x rs2).toNat % 32) else (s.x rs1).getLsbD 31) ∧
    (∃ t v, exec (.srl rd rs1 rs2) s = .next t ∧ WritesRegister s t rd v (s.pc + 4#32) ∧
      ∀ i < 32, v.getLsbD i =
        if i + (s.x rs2).toNat % 32 ≤ 31 then (s.x rs1).getLsbD (i + (s.x rs2).toNat % 32) else false) ∧
    (∃ t v, exec (.sll rd rs1 rs2) s = .next t ∧ WritesRegister s t rd v (s.pc + 4#32) ∧
      ∀ i < 32, v.getLsbD i =
        if (s.x rs2).toNat % 32 ≤ i then (s.x rs1).getLsbD (i - (s.x rs2).toNat % 32) else false)

/-- R122: ADDI completes for every operand; `rd` gets the sum of the source and the sign-extended immediate modulo 2^32. Its encoding
decodes to it. -/
def Obligations.AddiWritesTheWrappedSum : Prop :=
  ∀ (rd rs1 : Reg) (imm : BitVec 12) (s : State),
    decodeWord (imm ++ rs1 ++ 0b000#3 ++ rd ++ 0b0010011#7) = .ok (.addi rd rs1 imm) ∧
    (∃ t v, exec (.addi rd rs1 imm) s = .next t ∧ WritesRegister s t rd v (s.pc + 4#32) ∧
      (v.toNat : Int) = (((s.x rs1).toNat : Int) + imm.toInt) % 2 ^ 32)

/-- R123, R124, R125 (with R9): ANDI, ORI and XORI complete for every operand and combine each bit of the source with the same bit of
the constant, whose bits 31:12 are copies of the immediate's bit 11. Their encodings decode to them. -/
def Obligations.BitwiseImmediatesSignExtend : Prop :=
  ∀ (rd rs1 : Reg) (imm : BitVec 12) (s : State),
    decodeWord (imm ++ rs1 ++ 0b111#3 ++ rd ++ 0b0010011#7) = .ok (.andi rd rs1 imm) ∧
    decodeWord (imm ++ rs1 ++ 0b110#3 ++ rd ++ 0b0010011#7) = .ok (.ori rd rs1 imm) ∧
    decodeWord (imm ++ rs1 ++ 0b100#3 ++ rd ++ 0b0010011#7) = .ok (.xori rd rs1 imm) ∧
    (∃ t v, exec (.andi rd rs1 imm) s = .next t ∧ WritesRegister s t rd v (s.pc + 4#32) ∧
      ∀ i < 32, v.getLsbD i = ((s.x rs1).getLsbD i && (if i < 12 then imm.getLsbD i else imm.getLsbD 11))) ∧
    (∃ t v, exec (.ori rd rs1 imm) s = .next t ∧ WritesRegister s t rd v (s.pc + 4#32) ∧
      ∀ i < 32, v.getLsbD i = ((s.x rs1).getLsbD i || (if i < 12 then imm.getLsbD i else imm.getLsbD 11))) ∧
    (∃ t v, exec (.xori rd rs1 imm) s = .next t ∧ WritesRegister s t rd v (s.pc + 4#32) ∧
      ∀ i < 32, v.getLsbD i = ((s.x rs1).getLsbD i ^^ (if i < 12 then imm.getLsbD i else imm.getLsbD 11)))

/-- R126, R127: SLTI and SLTIU complete for every operand; both sign-extend the immediate, SLTIU then reads the 32-bit result as
unsigned. `rd` gets 1 or 0 (the spec's decision D4). Their encodings decode to them. -/
def Obligations.SltiSltiuCompareWithTheSignExtendedConstant : Prop :=
  ∀ (rd rs1 : Reg) (imm : BitVec 12) (s : State),
    decodeWord (imm ++ rs1 ++ 0b010#3 ++ rd ++ 0b0010011#7) = .ok (.slti rd rs1 imm) ∧
    decodeWord (imm ++ rs1 ++ 0b011#3 ++ rd ++ 0b0010011#7) = .ok (.sltiu rd rs1 imm) ∧
    (∃ t v, exec (.slti rd rs1 imm) s = .next t ∧ WritesRegister s t rd v (s.pc + 4#32) ∧
      v = if (s.x rs1).toInt < imm.toInt then 0x00000001#32 else 0x00000000#32) ∧
    (∃ t v, exec (.sltiu rd rs1 imm) s = .next t ∧ WritesRegister s t rd v (s.pc + 4#32) ∧
      v = if ((s.x rs1).toNat : Int) < imm.toInt % 2 ^ 32 then 0x00000001#32 else 0x00000000#32)

/-- R128, R129, R130 (with R8): the three shifts by constant complete for every operand, with the unsigned amount 0 to 31 of
`inst[24:20]`. Their encodings decode to them. -/
def Obligations.ConstantShiftsUseTheFiveBitAmount : Prop :=
  ∀ (rd rs1 : Reg) (shamt : BitVec 5) (s : State),
    decodeWord (0b0100000#7 ++ shamt ++ rs1 ++ 0b101#3 ++ rd ++ 0b0010011#7) = .ok (.srai rd rs1 shamt) ∧
    decodeWord (0b0000000#7 ++ shamt ++ rs1 ++ 0b101#3 ++ rd ++ 0b0010011#7) = .ok (.srli rd rs1 shamt) ∧
    decodeWord (0b0000000#7 ++ shamt ++ rs1 ++ 0b001#3 ++ rd ++ 0b0010011#7) = .ok (.slli rd rs1 shamt) ∧
    (∃ t v, exec (.srai rd rs1 shamt) s = .next t ∧ WritesRegister s t rd v (s.pc + 4#32) ∧
      ∀ i < 32, v.getLsbD i =
        if i + shamt.toNat ≤ 31 then (s.x rs1).getLsbD (i + shamt.toNat) else (s.x rs1).getLsbD 31) ∧
    (∃ t v, exec (.srli rd rs1 shamt) s = .next t ∧ WritesRegister s t rd v (s.pc + 4#32) ∧
      ∀ i < 32, v.getLsbD i =
        if i + shamt.toNat ≤ 31 then (s.x rs1).getLsbD (i + shamt.toNat) else false) ∧
    (∃ t v, exec (.slli rd rs1 shamt) s = .next t ∧ WritesRegister s t rd v (s.pc + 4#32) ∧
      ∀ i < 32, v.getLsbD i =
        if shamt.toNat ≤ i then (s.x rs1).getLsbD (i - shamt.toNat) else false)

/-- R131, R132: LUI and AUIPC complete for every operand; LUI writes the field times 4096, AUIPC adds that to the address of the AUIPC
itself modulo 2^32. Their encodings decode to them. -/
def Obligations.LuiAuipcPlaceTheUpperConstant : Prop :=
  ∀ (rd : Reg) (imm : BitVec 20) (s : State),
    decodeWord (imm ++ rd ++ 0b0110111#7) = .ok (.lui rd imm) ∧
    decodeWord (imm ++ rd ++ 0b0010111#7) = .ok (.auipc rd imm) ∧
    (∃ t v, exec (.lui rd imm) s = .next t ∧ WritesRegister s t rd v (s.pc + 4#32) ∧
      v.toNat = imm.toNat * 4096) ∧
    (∃ t v, exec (.auipc rd imm) s = .next t ∧ WritesRegister s t rd v (s.pc + 4#32) ∧
      v.toNat = (s.pc.toNat + imm.toNat * 4096) % 2 ^ 32)

/-- The sentence of R120 that the spec marks as derived: each of the nine register-immediate instructions computes exactly what its
register-register namesake computes, with the constant in the place of the second source. -/
def Obligations.ImmediateFormsMatchRegisterForms : Prop :=
  ∀ (rd rs1 rs2 : Reg) (imm : BitVec 12) (shamt : BitVec 5) (s : State),
    (s.x rs2 = imm.signExtend 32 →
      exec (.addi rd rs1 imm) s = exec (.add rd rs1 rs2) s ∧
      exec (.andi rd rs1 imm) s = exec (.and rd rs1 rs2) s ∧
      exec (.ori rd rs1 imm) s = exec (.or rd rs1 rs2) s ∧
      exec (.xori rd rs1 imm) s = exec (.xor rd rs1 rs2) s ∧
      exec (.slti rd rs1 imm) s = exec (.slt rd rs1 rs2) s ∧
      exec (.sltiu rd rs1 imm) s = exec (.sltu rd rs1 rs2) s) ∧
    ((s.x rs2).toNat % 32 = shamt.toNat →
      exec (.srai rd rs1 shamt) s = exec (.sra rd rs1 rs2) s ∧
      exec (.srli rd rs1 shamt) s = exec (.srl rd rs1 rs2) s ∧
      exec (.slli rd rs1 shamt) s = exec (.sll rd rs1 rs2) s)

/-- From R140, R141, R41 and R54: where the effective address (the wrapped sum) is a multiple of 4 and the word exists, LW completes:
`rd` gets the four bytes there, lowest byte in bits 7:0, and nothing else changes but PC. The checks are the spec's decisions D8 and
D10, the byte order D7; a byte nothing has fixed reads as the free value of notes/assumptions/3.md. Its encoding decodes to it. -/
def Obligations.LwLoadsTheAddressedWord : Prop :=
  ∀ (rd rs1 : Reg) (imm : BitVec 12) (s : State),
    decodeWord (imm ++ rs1 ++ 0b010#3 ++ rd ++ 0b0000011#7) = .ok (.lw rd rs1 imm) ∧
    (∀ ea, ea = s.x rs1 + imm.signExtend 32 → IsWordAddress ea → s.Exists ea →
      ∃ t v, exec (.lw rd rs1 imm) s = .next t ∧ WritesRegister s t rd v (s.pc + 4#32) ∧
        v.extractLsb' 0 8 = s.byteAt ea.toNat ∧ v.extractLsb' 8 8 = s.byteAt (ea.toNat + 1) ∧
        v.extractLsb' 16 8 = s.byteAt (ea.toNat + 2) ∧ v.extractLsb' 24 8 = s.byteAt (ea.toNat + 3))

/-- From R42, R45, R47 and R141 (the spec's decisions D8, D10, D22): LW at a misaligned address takes LoadAddressMisaligned, at an aligned
address where no word exists LoadAccessFault, whatever `rd` is (D20), and changes nothing else. That taking a fault is a next state
with the mark set is the model's choice (notes/assumptions/5.md). -/
def Obligations.LwFaultsOnABadAddress : Prop :=
  ∀ (rd rs1 : Reg) (imm : BitVec 12) (s : State) (ea : Word),
    (ea = s.x rs1 + imm.signExtend 32 →
      (¬ IsWordAddress ea → exec (.lw rd rs1 imm) s = .next { s with faulted := some (.loadAddressMisaligned ea) }) ∧
      (IsWordAddress ea → ¬ s.Exists ea → exec (.lw rd rs1 imm) s = .next { s with faulted := some (.loadAccessFault ea) }))

/-- From R140, R142, R41, R47 and R54: where the effective address is a multiple of 4 and the word exists, SW completes: the four bytes
there become those of the source, lowest byte first, the address joins the `stored` set, PC moves to the next word, and every other
byte and every register is unchanged. Decisions D7, D8, D10, D12. That the address joins the set also with IFETCH_COHERENT true is read
from the pseudocode of R47 (DEDUCED, notes/assumptions/17.md). Its encoding decodes to it. -/
def Obligations.SwStoresTheWord : Prop :=
  ∀ (rs2 rs1 : Reg) (imm : BitVec 12) (s : State),
    decodeWord (imm.extractLsb' 5 7 ++ rs2 ++ rs1 ++ 0b010#3 ++ imm.extractLsb' 0 5 ++ 0b0100011#7) = .ok (.sw rs2 rs1 imm) ∧
    (∀ ea, ea = s.x rs1 + imm.signExtend 32 → IsWordAddress ea → s.Exists ea →
      ∃ t, exec (.sw rs2 rs1 imm) s = .next t ∧ StoresWord s t ea (s.x rs2))

/-- From R42, R45, R47 and R142 (decisions D8, D10, D22): SW at a misaligned address takes StoreAddressMisaligned, at an aligned address
where no word exists StoreAccessFault, and changes nothing else. The form of the fault is the model's (notes/assumptions/5.md). -/
def Obligations.SwFaultsOnABadAddress : Prop :=
  ∀ (rs2 rs1 : Reg) (imm : BitVec 12) (s : State) (ea : Word),
    (ea = s.x rs1 + imm.signExtend 32 →
      (¬ IsWordAddress ea → exec (.sw rs2 rs1 imm) s = .next { s with faulted := some (.storeAddressMisaligned ea) }) ∧
      (IsWordAddress ea → ¬ s.Exists ea → exec (.sw rs2 rs1 imm) s = .next { s with faulted := some (.storeAccessFault ea) }))

/-- From R150, R151 and R71 (decisions D5, D9): where the target, the JAL's own address plus the offset modulo 2^32, is a multiple of 4,
JAL completes: `rd` gets pc + 4, PC becomes the target, nothing else changes. Its encoding decodes to it. -/
def Obligations.JalLinksAndJumps : Prop :=
  ∀ (rd : Reg) (imm : BitVec 21) (s : State),
    (imm.getLsbD 0 = false →
      decodeWord (imm.extractLsb' 20 1 ++ imm.extractLsb' 1 10 ++ imm.extractLsb' 11 1 ++ imm.extractLsb' 12 8 ++ rd ++
        0b1101111#7) = .ok (.jal rd imm)) ∧
    (∀ target, target = s.pc + imm.signExtend 32 → IsWordAddress target →
      ∃ t, exec (.jal rd imm) s = .next t ∧ WritesRegister s t rd (s.pc + 4#32) target)

/-- From R150, R152 and R13 (decisions D9, D19): where the sum of the register's old value and the immediate, bit 0 cleared, is a multiple
of 4, JALR completes: `rd` gets pc + 4 and PC the target, also when `rd` is the base register. Its encoding decodes to it. -/
def Obligations.JalrLinksAndJumps : Prop :=
  ∀ (rd rs1 : Reg) (imm : BitVec 12) (s : State),
    decodeWord (imm ++ rs1 ++ 0b000#3 ++ rd ++ 0b1100111#7) = .ok (.jalr rd rs1 imm) ∧
    (∀ target, target = (s.x rs1 + imm.signExtend 32) &&& 0xFFFFFFFE#32 → IsWordAddress target →
      ∃ t, exec (.jalr rd rs1 imm) s = .next t ∧ WritesRegister s t rd (s.pc + 4#32) target)

/-- From R160, R161, R162 and R69 (decisions D5, D9): BEQ and BNE complete whenever they are not taken, whatever the offset, and
whenever they are taken to a multiple of 4; only PC changes. On the same registers exactly one of the two is taken. Their encodings
decode to them. -/
def Obligations.BeqBneBranchOnEquality : Prop :=
  ∀ (rs1 rs2 : Reg) (imm : BitVec 13) (s : State),
    (imm.getLsbD 0 = false →
      decodeWord (imm.extractLsb' 12 1 ++ imm.extractLsb' 5 6 ++ rs2 ++ rs1 ++ 0b000#3 ++ imm.extractLsb' 1 4 ++
        imm.extractLsb' 11 1 ++ 0b1100011#7) = .ok (.beq rs1 rs2 imm)) ∧
    (imm.getLsbD 0 = false →
      decodeWord (imm.extractLsb' 12 1 ++ imm.extractLsb' 5 6 ++ rs2 ++ rs1 ++ 0b001#3 ++ imm.extractLsb' 1 4 ++
        imm.extractLsb' 11 1 ++ 0b1100011#7) = .ok (.bne rs1 rs2 imm)) ∧
    (s.x rs1 = s.x rs2 → IsWordAddress (s.pc + imm.signExtend 32) →
      ∃ t, exec (.beq rs1 rs2 imm) s = .next t ∧ WritesOnlyPc s t (s.pc + imm.signExtend 32)) ∧
    (s.x rs1 ≠ s.x rs2 → ∃ t, exec (.beq rs1 rs2 imm) s = .next t ∧ WritesOnlyPc s t (s.pc + 4#32)) ∧
    (s.x rs1 ≠ s.x rs2 → IsWordAddress (s.pc + imm.signExtend 32) →
      ∃ t, exec (.bne rs1 rs2 imm) s = .next t ∧ WritesOnlyPc s t (s.pc + imm.signExtend 32)) ∧
    (s.x rs1 = s.x rs2 → ∃ t, exec (.bne rs1 rs2 imm) s = .next t ∧ WritesOnlyPc s t (s.pc + 4#32))

/-- From R160, R163, R164 and R69 (decisions D5, D9): BLT and BGE complete whenever they are not taken, whatever the offset, and
whenever they are taken to a multiple of 4; only PC changes. On the same registers exactly one of the two is taken. Their encodings
decode to them. -/
def Obligations.BltBgeBranchOnSignedOrder : Prop :=
  ∀ (rs1 rs2 : Reg) (imm : BitVec 13) (s : State),
    (imm.getLsbD 0 = false →
      decodeWord (imm.extractLsb' 12 1 ++ imm.extractLsb' 5 6 ++ rs2 ++ rs1 ++ 0b100#3 ++ imm.extractLsb' 1 4 ++
        imm.extractLsb' 11 1 ++ 0b1100011#7) = .ok (.blt rs1 rs2 imm)) ∧
    (imm.getLsbD 0 = false →
      decodeWord (imm.extractLsb' 12 1 ++ imm.extractLsb' 5 6 ++ rs2 ++ rs1 ++ 0b101#3 ++ imm.extractLsb' 1 4 ++
        imm.extractLsb' 11 1 ++ 0b1100011#7) = .ok (.bge rs1 rs2 imm)) ∧
    ((s.x rs1).toInt < (s.x rs2).toInt → IsWordAddress (s.pc + imm.signExtend 32) →
      ∃ t, exec (.blt rs1 rs2 imm) s = .next t ∧ WritesOnlyPc s t (s.pc + imm.signExtend 32)) ∧
    ((s.x rs2).toInt ≤ (s.x rs1).toInt → ∃ t, exec (.blt rs1 rs2 imm) s = .next t ∧ WritesOnlyPc s t (s.pc + 4#32)) ∧
    ((s.x rs2).toInt ≤ (s.x rs1).toInt → IsWordAddress (s.pc + imm.signExtend 32) →
      ∃ t, exec (.bge rs1 rs2 imm) s = .next t ∧ WritesOnlyPc s t (s.pc + imm.signExtend 32)) ∧
    ((s.x rs1).toInt < (s.x rs2).toInt → ∃ t, exec (.bge rs1 rs2 imm) s = .next t ∧ WritesOnlyPc s t (s.pc + 4#32))

/-- From R160, R165, R166 and R69 (decisions D5, D9): BLTU and BGEU complete whenever they are not taken, whatever the offset, and
whenever they are taken to a multiple of 4; only PC changes. On the same registers exactly one of the two is taken. Their encodings
decode to them. -/
def Obligations.BltuBgeuBranchOnUnsignedOrder : Prop :=
  ∀ (rs1 rs2 : Reg) (imm : BitVec 13) (s : State),
    (imm.getLsbD 0 = false →
      decodeWord (imm.extractLsb' 12 1 ++ imm.extractLsb' 5 6 ++ rs2 ++ rs1 ++ 0b110#3 ++ imm.extractLsb' 1 4 ++
        imm.extractLsb' 11 1 ++ 0b1100011#7) = .ok (.bltu rs1 rs2 imm)) ∧
    (imm.getLsbD 0 = false →
      decodeWord (imm.extractLsb' 12 1 ++ imm.extractLsb' 5 6 ++ rs2 ++ rs1 ++ 0b111#3 ++ imm.extractLsb' 1 4 ++
        imm.extractLsb' 11 1 ++ 0b1100011#7) = .ok (.bgeu rs1 rs2 imm)) ∧
    ((s.x rs1).toNat < (s.x rs2).toNat → IsWordAddress (s.pc + imm.signExtend 32) →
      ∃ t, exec (.bltu rs1 rs2 imm) s = .next t ∧ WritesOnlyPc s t (s.pc + imm.signExtend 32)) ∧
    ((s.x rs2).toNat ≤ (s.x rs1).toNat → ∃ t, exec (.bltu rs1 rs2 imm) s = .next t ∧ WritesOnlyPc s t (s.pc + 4#32)) ∧
    ((s.x rs2).toNat ≤ (s.x rs1).toNat → IsWordAddress (s.pc + imm.signExtend 32) →
      ∃ t, exec (.bgeu rs1 rs2 imm) s = .next t ∧ WritesOnlyPc s t (s.pc + imm.signExtend 32)) ∧
    ((s.x rs1).toNat < (s.x rs2).toNat → ∃ t, exec (.bgeu rs1 rs2 imm) s = .next t ∧ WritesOnlyPc s t (s.pc + 4#32))

/-- From R46, R150 to R152 and R160 (decision D9): a jump, or a branch that is taken, whose target is not a multiple of 4 takes
InstructionAddressMisaligned with the target at the jump or branch itself and writes nothing else, the link included. The form of the
fault is the model's (notes/assumptions/5.md). -/
def Obligations.TakenTransfersToMisalignedTargetsFault : Prop :=
  ∀ (i : Instr) (s : State) (target : Word),
    (i.takenTarget s = some target → ¬ IsWordAddress target →
      exec i s = .next { s with faulted := some (.instructionAddressMisaligned target) })

/-- R10: `x[i]` is zero for `i = 0` and else the register's content; a write sets that register alone, and for register 0 nothing. -/
def Obligations.RegisterReadsSeeTheLastWrite : Prop :=
  ∀ (s : State) (i j : Reg) (v : Word),
    s.x 0#5 = 0x00000000#32 ∧
    (s.setX 0#5 v) = s ∧
    (i ≠ 0#5 → (s.setX i v).x i = v) ∧
    (j ≠ i → (s.setX i v).x j = s.x j)

/-- From R22, R13 and R141 (decisions D2, D20): which register an instruction names as its destination has no part in anything else it
does: PC, memory, the `stored` set and the fault taken are the same; with register 0 no register changes, and a load still makes its access.
The form of the fault is the model's (notes/assumptions/5.md). -/
def Obligations.TheDestinationDecidesNothingElse : Prop :=
  ∀ (i : Instr) (r : Reg) (s t : State),
    (exec i s = .next t → ∃ u, exec (i.withDest r) s = .next u ∧ u.pc = t.pc ∧ u.mem = t.mem ∧ u.stored = t.stored ∧
      u.faulted = t.faulted ∧ u.params = t.params ∧ (r = 0#5 → ∀ q, u.x q = s.x q))

/-- From R25 (a sentence the spec marks as derived), R12 and R170: an instruction that is not a jump and not a taken branch either goes on
at pc + 4 with the mark clear, or takes a fault and changes nothing but the mark. That taking a fault is a next state with the mark set is
the model's choice (notes/assumptions/5.md). -/
def Obligations.OtherInstructionsGoOnAtTheNextWord : Prop :=
  ∀ (i : Instr) (s : State),
    (s.faulted = none → i.takenTarget s = none →
      ∃ t, exec i s = .next t ∧ ((t.faulted = none ∧ t.pc = s.pc + 4#32) ∨ ∃ f, t = { s with faulted := some f }))

/-- The write column of the table of R23, with R28 and, for the `stored` set, R47: whatever an instruction does, only its destination
register can change; only SW changes memory and the `stored` set, and only the four bytes at its effective address; no instruction changes
the configuration. A next state is also the form of a fault (notes/assumptions/5.md). -/
def Obligations.OnlyTheNamedDestinationsChange : Prop :=
  ∀ (i : Instr) (s t : State),
    (exec i s = .next t →
      (∀ r, i.dest ≠ some r → t.x r = s.x r) ∧
      (∀ a, (∀ ea, i.storeAddress s = some ea → a < ea.toNat ∨ ea.toNat + 4 ≤ a) → t.byteAt a = s.byteAt a) ∧
      (∀ a, (∀ ea, i.storeAddress s = some ea → a ≠ ea.toNat) → (a ∈ t.stored ↔ a ∈ s.stored)) ∧
      t.params = s.params)

/-- The read column of the table of R23, with R13 and, for the `stored` set, R47: two states that agree on PC, the configuration, the
registers an instruction names as sources and, for a load, on memory, go on alike: same PC, same fault, and where none is taken the same
value in the destination register and, for a store, the same four bytes at the effective address, which is then in both `stored` sets. (Both
start unfaulted, as R193 says; the form of the fault is the model's, notes/assumptions/5.md. That the address joins the set also with
IFETCH_COHERENT true is read from the pseudocode of R47: DEDUCED, notes/assumptions/17.md.) -/
def Obligations.OnlyTheNamedSourcesAreRead : Prop :=
  ∀ (i : Instr) (s u t : State),
    (s.faulted = none → u.faulted = none → u.pc = s.pc → u.params = s.params → (∀ r ∈ i.sources, u.x r = s.x r) →
      (∀ ea, i.loadAddress s = some ea → ∀ a, ea.toNat ≤ a → a < ea.toNat + 4 → u.byteAt a = s.byteAt a) →
      exec i s = .next t →
      ∃ w, exec i u = .next w ∧ w.pc = t.pc ∧ w.faulted = t.faulted ∧
        (t.faulted = none → ∀ r, i.dest = some r → w.x r = t.x r) ∧
        (t.faulted = none → ∀ ea, i.storeAddress s = some ea →
          (∀ a, ea.toNat ≤ a → a < ea.toNat + 4 → w.byteAt a = t.byteAt a) ∧ ea.toNat ∈ w.stored ∧ ea.toNat ∈ t.stored))

/-- From R33, R190 and R191: every launch whose parameters are in their ranges and whose image is in canonical form inside memory gives a
state that meets the invariant, and `State.reset` is one. The values `State.reset` names are the model's (notes/assumptions/1.md, 2.md). -/
def Obligations.EveryLaunchStateIsSound : Prop :=
    (∀ l : Launch, l.wf = true → (State.launch l).Inv) ∧ State.reset.Inv

/-- R190 with the table of R33 (decision D16): PC is RESET_PC, registers 1 to 31 hold REG_INIT and register 0 zero, memory is the image, the
faulted mark is clear, the `stored` set empty. The parameters are a field of the model's own (notes/assumptions/1.md). -/
def Obligations.LaunchLeavesTheResetTable : Prop :=
  ∀ (l : Launch),
    (State.launch l).pc = l.params.resetPc ∧
    (State.launch l).x 0#5 = 0x00000000#32 ∧
    (∀ (k : Nat) (hk : k < 31), (State.launch l).x (BitVec.ofNat 5 (k + 1)) = l.regInit[k]) ∧
    (∀ a b, Memory.find l.image a = some b → (State.launch l).byteAt a = b) ∧
    (State.launch l).faulted = none ∧
    (State.launch l).stored = [] ∧
    (State.launch l).params = l.params

/-- The invariant of Safety.lean (from R4, R26, R31, R47): PC a multiple of 4, parameters in their ranges, memory canonical and inside its
bounds, the `stored` set canonical and made of existing words whose bytes are fixed. Every step from every state that meets it keeps it. -/
def Obligations.EveryStepKeepsTheInvariant : Prop :=
  ∀ (s t : State),
    (s.Inv → step s = .next t → t.Inv)

/-- From R26 (decision D9): a step from any state whose PC is a multiple of 4 leaves PC a multiple of 4, whatever else holds. -/
def Obligations.PcStaysAMultipleOfFour : Prop :=
  ∀ (s t : State),
    (IsWordAddress s.pc → step s = .next t → IsWordAddress t.pc)

/-- From R12, R170 and R173 (decision D13): the step that takes a fault changes nothing but the mark, and no instruction is ever executed
after it: the next step answers that fault. The form of the fault is the model's (notes/assumptions/5.md). -/
def Obligations.FaultsArePreciseAndTerminal : Prop :=
  ∀ (s t : State) (f : Fault),
    (s.faulted = none → step s = .next t → t.faulted = some f →
      t = { s with faulted := some f } ∧ step t = .fault f)

/-- The table of R171 with the priorities of R172 (decisions D6, D8, D9, D10, D12, D13, D22): a running machine takes a fault in one step
exactly when the table's condition for that fault holds, with the value the table records; so nothing else ever faults. The form of the
fault is the model's (notes/assumptions/5.md), and so is the fetch in states whose PC is not a multiple of 4 (notes/assumptions/16.md). -/
def Obligations.FaultsAreRaisedExactlyWhenTheTableSays : Prop :=
  ∀ (s : State) (f : Fault),
    (s.Running → ((∃ t, step s = .next t ∧ t.faulted = some f) ↔ s.Raises f))

/-- From R170, R192 and R193 (decisions D13, D17): a machine that is not faulted and not at HALT_PC always has a next state; a faulted one
answers its fault; at HALT_PC the run has ended. The two stops are the model's forms (notes/assumptions/5.md, 6.md). -/
def Obligations.ARunningMachineAlwaysSteps : Prop :=
  ∀ (s : State),
    (s.Running → ∃ t, step s = .next t) ∧
    (∀ f, s.faulted = some f → step s = .fault f) ∧
    (s.Ended → step s = .refused .runEnded)

/-- From R193 and R74: when the machine runs, the word at PC can be fetched and decodes to `i`, the step is `exec` of `i` at that state and
nothing more: PC is moved by the instruction itself. The fetch at a PC that is not a multiple of 4 is the model's
(notes/assumptions/16.md). -/
def Obligations.StepRunsTheDecodedInstruction : Prop :=
  ∀ (s : State) (i : Instr),
    (s.Running → s.AboutToRun i → step s = exec i s)

/-- From R80 and R171 (decision D6): a fetched word that matches no row of the opcode map takes IllegalInstruction with the word and changes
nothing else. The form of the fault is the model's (notes/assumptions/5.md), and so is the fetch at a PC that is not a multiple of 4
(notes/assumptions/16.md). -/
def Obligations.UnlistedWordsAreIllegal : Prop :=
  ∀ (s : State),
    (s.Running → s.Fetchable → (∀ row ∈ opcodeMap, s.wordAt s.pc &&& row.1 ≠ row.2) →
      step s = .next { s with faulted := some (.illegalInstruction (s.wordAt s.pc)) })

/-- R73: for each of the 31 rows, a word decodes to that row's instruction exactly when `inst & mask = match`. -/
def Obligations.AWordIsAnInstructionExactlyWhenItMatchesItsRow : Prop :=
  ∀ (w : Word) (k : Fin 31),
    (w &&& opcodeMap[k].1 = opcodeMap[k].2 ↔ ∃ i, decodeWord w = .ok i ∧ i.rowIndex = k)

/-- Decode after encode (R41, R60, R62 to R73): for every well-formed instruction with every operand value, the four bytes it is stored as
decode to it and leave the bytes after them alone. -/
def Obligations.EncodedInstructionsDecodeBack : Prop :=
  ∀ (i : Instr) (rest : List Byte),
    (i.wellFormed = true → decode (encodeBytes i ++ rest) = .ok (i, rest))

/-- Encode after decode (R74: no instruction has bits that are ignored): a word that decodes to an instruction is that instruction's
encoding, and the instruction is well-formed. -/
def Obligations.DecodedWordsEncodeBack : Prop :=
  ∀ (w : Word) (i : Instr),
    (decodeWord w = .ok i → i.wellFormed = true ∧ encode i = w)

/-- Words the spec writes out (30_encoding.md, worked assembly of the immediates; 40_reg_reg_arith.md R103; 42_memory_instructions.md R141)
decode to the instructions it names. -/
def Obligations.TheSpecsSampleWordsDecode : Prop :=
    decodeWord 0x407302B3#32 = .ok (.sub 5#5 6#5 7#5) ∧
    decodeWord 0xFFF30293#32 = .ok (.addi 5#5 6#5 0xFFF#12) ∧
    decodeWord 0x40335293#32 = .ok (.srai 5#5 6#5 3#5) ∧
    decodeWord 0x00832283#32 = .ok (.lw 5#5 6#5 8#12) ∧
    decodeWord 0xFE732E23#32 = .ok (.sw 7#5 6#5 0xFFC#12) ∧
    decodeWord 0x3441206F#32 = .ok (.jal 0#5 0x12344#21) ∧
    decodeWord 0x006282E3#32 = .ok (.beq 5#5 6#5 0x804#13)

/-- From R47 and R50 (decisions D8, D10, D11): after an SW that completed, an LW from the same effective address returns the word stored, and
an LW from any other aligned existing address returns the word that was there before. That a clear mark says that the SW completed is the
form of the model (notes/assumptions/5.md). -/
def Obligations.ALoadReturnsTheLatestStore : Prop :=
  ∀ (rs2 rs1 rd base : Reg) (imm disp : BitVec 12) (s t : State) (ea la : Word),
    (s.faulted = none → exec (.sw rs2 rs1 imm) s = .next t → t.faulted = none → ea = s.x rs1 + imm.signExtend 32 →
      la = t.x base + disp.signExtend 32 → IsWordAddress la → t.Exists la →
      ∃ u v, exec (.lw rd base disp) t = .next u ∧ WritesRegister t u rd v (t.pc + 4#32) ∧
        (la = ea → v = s.x rs2) ∧ (la ≠ ea → v = s.wordAt la))

/-- From R47 and R48 (decision D12): at a word in the `stored` set a running machine takes FetchAfterStore and changes nothing else, unless
IFETCH_COHERENT is set; then it runs the stored word. The form of the fault is the model's (notes/assumptions/5.md), and so is the fetch at a
PC that is not a multiple of 4 (notes/assumptions/16.md). -/
def Obligations.FetchOfAStoredWordDependsOnCoherence : Prop :=
  ∀ (s : State) (i : Instr),
    (s.Running → s.Exists s.pc → s.pc.toNat ∈ s.stored →
      (s.params.ifetchCoherent = false → step s = .next { s with faulted := some (.fetchAfterStore s.pc) }) ∧
      (s.params.ifetchCoherent = true → decodeWord (s.wordAt s.pc) = .ok i → step s = exec i s))

/-- From R47, R48 and R32 (decision D12): an address is in the `stored` set after a step exactly when it was before, or the step ran an SW
that took no fault and it is the effective address. R32 keeps the set for IFETCH_COHERENT false; that it grows also when the parameter is
true is read from the pseudocode of R47 (DEDUCED, notes/assumptions/17.md). That a clear mark says that no fault was taken, and the fetch at
a PC that is not a multiple of 4, are the model's (notes/assumptions/5.md, 16.md). -/
def Obligations.TheStoredSetGrowsByStoresOnly : Prop :=
  ∀ (s t : State) (a : Nat),
    (step s = .next t →
      (a ∈ t.stored ↔ a ∈ s.stored ∨ ∃ i ea, s.AboutToRun i ∧ i.storeAddress s = some ea ∧ t.faulted = none ∧ a = ea.toNat))

/-- From R88 (`li`, general knowledge in the spec) and R122: for every 32-bit value, LUI of its upper part (adjusted for the sign of the
lower) and then ADDI of its low 12 bits leave that value in the register, two words further on, nothing else changed. -/
def Obligations.LuiThenAddiBuildsAnyConstant : Prop :=
  ∀ (rd : Reg) (v : Word) (s : State),
    (∃ t u, exec (.lui rd ((v - (v.extractLsb' 0 12).signExtend 32).extractLsb' 12 20)) s = .next t ∧
      exec (.addi rd rd (v.extractLsb' 0 12)) t = .next u ∧ (rd ≠ 0#5 → WritesRegister s u rd v (s.pc + 8#32)))

/-- The last sentence of R112, which the spec marks as derived: after `add sum, a, b`, `sltu c, sum, a` gives the carry out of the addition,
when `sum` is not register 0 and does not overwrite `a`. -/
def Obligations.SltuAfterAddGivesTheCarry : Prop :=
  ∀ (sum a b c : Reg) (s t : State),
    (sum ≠ 0#5 → sum ≠ a → c ≠ 0#5 → exec (.add sum a b) s = .next t →
      ∃ u, exec (.sltu c sum a) t = .next u ∧
        u.x c = if 2 ^ 32 ≤ (s.x a).toNat + (s.x b).toNat then 0x00000001#32 else 0x00000000#32)

/-- The canonical form of memory (from R31; the form is the model's, notes/assumptions/3.md): two memories in canonical form that list the
same byte at every address are the same list. -/
def Obligations.EqualMemoriesAreEqualData : Prop :=
  ∀ (m n : Memory),
    (Memory.wf m = true → Memory.wf n = true → (∀ a, Memory.find m a = Memory.find n a) → m = n)

/-- From R203 and R193, with the model's way of placing one instruction (notes/assumptions/4.md): in a running machine at an existing word, after
`withFetchWord` the step runs the instruction the decoder reads from the word, or takes IllegalInstruction when it reads none; placing it
changes no register, not PC, not the mark, not the configuration, and no byte outside the word. The form of the fault and
the fetch at a PC that is not a multiple of 4 are the model's too (notes/assumptions/5.md, 16.md). -/
def Obligations.AWordPlacedAtPcIsTheOneRun : Prop :=
  ∀ (s p : State) (w : Nat) (i : Instr),
    (s.Running → s.Exists s.pc → p = s.withFetchWord 32 w →
      (decodeTableWord 32 w = some i → step p = exec i p) ∧
      (decodeTableWord 32 w = none → step p = .next { p with faulted := some (.illegalInstruction (BitVec.ofNat 32 w)) }) ∧
      (∀ r, p.x r = s.x r) ∧ p.pc = s.pc ∧ p.faulted = s.faulted ∧ p.params = s.params ∧
      (∀ a, a < s.pc.toNat ∨ s.pc.toNat + 4 ≤ a → p.byteAt a = s.byteAt a))
end

