-- ==== Sys2Proof/Laws/Decode.lean ====
section
/-! SUPPORT. An encoded word bit by bit, format by format (spec rules R63 to R71), its fields (R62, R67 to R72), and its constant
bits under the masks of rule R73. -/

namespace Sys2Proof

/-! ## Every bit of an encoded word -/

theorem getLsbD_encodeR (f7 : BitVec 7) (rs2 rs1 : Reg) (f3 : BitVec 3) (rd : Reg) (op : BitVec 7) (i : Nat) :
    (encodeR f7 rs2 rs1 f3 rd op).getLsbD i =
      if i < 7 then op.getLsbD i else if i < 12 then rd.getLsbD (i - 7) else if i < 15 then f3.getLsbD (i - 12)
      else if i < 20 then rs1.getLsbD (i - 15) else if i < 25 then rs2.getLsbD (i - 20) else f7.getLsbD (i - 25) := by
  simp only [encodeR, BitVec.getLsbD_append]
  repeat' split
  all_goals first | rfl | omega

theorem getLsbD_encodeI (imm : BitVec 12) (rs1 : Reg) (f3 : BitVec 3) (rd : Reg) (op : BitVec 7) (i : Nat) :
    (encodeI imm rs1 f3 rd op).getLsbD i =
      if i < 7 then op.getLsbD i else if i < 12 then rd.getLsbD (i - 7) else if i < 15 then f3.getLsbD (i - 12)
      else if i < 20 then rs1.getLsbD (i - 15) else imm.getLsbD (i - 20) := by
  simp only [encodeI, BitVec.getLsbD_append]
  repeat' split
  all_goals first | rfl | omega

theorem getLsbD_encodeS (imm : BitVec 12) (rs2 rs1 : Reg) (f3 : BitVec 3) (op : BitVec 7) {i : Nat} (hi : i < 32) :
    (encodeS imm rs2 rs1 f3 op).getLsbD i =
      if i < 7 then op.getLsbD i else if i < 12 then imm.getLsbD (i - 7) else if i < 15 then f3.getLsbD (i - 12)
      else if i < 20 then rs1.getLsbD (i - 15) else if i < 25 then rs2.getLsbD (i - 20) else imm.getLsbD (i - 20) := by
  simp only [encodeS, BitVec.getLsbD_append, BitVec.getLsbD_extractLsb']
  interval_cases i <;> simp

theorem getLsbD_encodeB (imm : BitVec 13) (rs2 rs1 : Reg) (f3 : BitVec 3) (op : BitVec 7) {i : Nat} (hi : i < 32) :
    (encodeB imm rs2 rs1 f3 op).getLsbD i =
      if i < 7 then op.getLsbD i else if i < 8 then imm.getLsbD 11 else if i < 12 then imm.getLsbD (i - 7)
      else if i < 15 then f3.getLsbD (i - 12) else if i < 20 then rs1.getLsbD (i - 15)
      else if i < 25 then rs2.getLsbD (i - 20) else if i < 31 then imm.getLsbD (i - 20) else imm.getLsbD 12 := by
  simp only [encodeB, BitVec.getLsbD_append, BitVec.getLsbD_extractLsb']
  interval_cases i <;> simp

theorem getLsbD_encodeU (imm : BitVec 20) (rd : Reg) (op : BitVec 7) (i : Nat) :
    (encodeU imm rd op).getLsbD i =
      if i < 7 then op.getLsbD i else if i < 12 then rd.getLsbD (i - 7) else imm.getLsbD (i - 12) := by
  simp only [encodeU, BitVec.getLsbD_append]
  repeat' split
  all_goals first | rfl | omega

theorem getLsbD_encodeJ (imm : BitVec 21) (rd : Reg) (op : BitVec 7) {i : Nat} (hi : i < 32) :
    (encodeJ imm rd op).getLsbD i =
      if i < 7 then op.getLsbD i else if i < 12 then rd.getLsbD (i - 7) else if i < 20 then imm.getLsbD i
      else if i < 21 then imm.getLsbD 11 else if i < 31 then imm.getLsbD (i - 20) else imm.getLsbD 20 := by
  simp only [encodeJ, BitVec.getLsbD_append, BitVec.getLsbD_extractLsb']
  interval_cases i <;> simp

/-! ## Every bit of a field -/

theorem getLsbD_opcodeOf (w : Word) (i : Nat) : (opcodeOf w).getLsbD i = (decide (i < 7) && w.getLsbD i) := by simp [opcodeOf]
theorem getLsbD_rdOf (w : Word) (i : Nat) : (rdOf w).getLsbD i = (decide (i < 5) && w.getLsbD (7 + i)) := by simp [rdOf]
theorem getLsbD_funct3Of (w : Word) (i : Nat) : (funct3Of w).getLsbD i = (decide (i < 3) && w.getLsbD (12 + i)) := by
  simp [funct3Of]
theorem getLsbD_rs1Of (w : Word) (i : Nat) : (rs1Of w).getLsbD i = (decide (i < 5) && w.getLsbD (15 + i)) := by simp [rs1Of]
theorem getLsbD_rs2Of (w : Word) (i : Nat) : (rs2Of w).getLsbD i = (decide (i < 5) && w.getLsbD (20 + i)) := by simp [rs2Of]
theorem getLsbD_funct7Of (w : Word) (i : Nat) : (funct7Of w).getLsbD i = (decide (i < 7) && w.getLsbD (25 + i)) := by
  simp [funct7Of]
theorem getLsbD_immIOf (w : Word) (i : Nat) : (immIOf w).getLsbD i = (decide (i < 12) && w.getLsbD (20 + i)) := by
  simp [immIOf]
theorem getLsbD_immUOf (w : Word) (i : Nat) : (immUOf w).getLsbD i = (decide (i < 20) && w.getLsbD (12 + i)) := by
  simp [immUOf]
theorem getLsbD_shamtOf (w : Word) (i : Nat) : (shamtOf w).getLsbD i = (decide (i < 5) && w.getLsbD (20 + i)) := by
  simp [shamtOf]

/-! ## Fields of an encoded word -/

@[simp] theorem opcodeOf_encodeR (f7 : BitVec 7) (rs2 rs1 : Reg) (f3 : BitVec 3) (rd : Reg) (op : BitVec 7) :
    opcodeOf (encodeR f7 rs2 rs1 f3 rd op) = op := by
  apply BitVec.eq_of_getLsbD_eq
  intro i hi
  rw [getLsbD_opcodeOf, getLsbD_encodeR]
  interval_cases i <;> simp

@[simp] theorem rdOf_encodeR (f7 : BitVec 7) (rs2 rs1 : Reg) (f3 : BitVec 3) (rd : Reg) (op : BitVec 7) :
    rdOf (encodeR f7 rs2 rs1 f3 rd op) = rd := by
  apply BitVec.eq_of_getLsbD_eq
  intro i hi
  rw [getLsbD_rdOf, getLsbD_encodeR]
  interval_cases i <;> simp

@[simp] theorem funct3Of_encodeR (f7 : BitVec 7) (rs2 rs1 : Reg) (f3 : BitVec 3) (rd : Reg) (op : BitVec 7) :
    funct3Of (encodeR f7 rs2 rs1 f3 rd op) = f3 := by
  apply BitVec.eq_of_getLsbD_eq
  intro i hi
  rw [getLsbD_funct3Of, getLsbD_encodeR]
  interval_cases i <;> simp

@[simp] theorem rs1Of_encodeR (f7 : BitVec 7) (rs2 rs1 : Reg) (f3 : BitVec 3) (rd : Reg) (op : BitVec 7) :
    rs1Of (encodeR f7 rs2 rs1 f3 rd op) = rs1 := by
  apply BitVec.eq_of_getLsbD_eq
  intro i hi
  rw [getLsbD_rs1Of, getLsbD_encodeR]
  interval_cases i <;> simp

@[simp] theorem rs2Of_encodeR (f7 : BitVec 7) (rs2 rs1 : Reg) (f3 : BitVec 3) (rd : Reg) (op : BitVec 7) :
    rs2Of (encodeR f7 rs2 rs1 f3 rd op) = rs2 := by
  apply BitVec.eq_of_getLsbD_eq
  intro i hi
  rw [getLsbD_rs2Of, getLsbD_encodeR]
  interval_cases i <;> simp

@[simp] theorem funct7Of_encodeR (f7 : BitVec 7) (rs2 rs1 : Reg) (f3 : BitVec 3) (rd : Reg) (op : BitVec 7) :
    funct7Of (encodeR f7 rs2 rs1 f3 rd op) = f7 := by
  apply BitVec.eq_of_getLsbD_eq
  intro i hi
  rw [getLsbD_funct7Of, getLsbD_encodeR]
  interval_cases i <;> simp

@[simp] theorem shamtOf_encodeR (f7 : BitVec 7) (rs2 rs1 : Reg) (f3 : BitVec 3) (rd : Reg) (op : BitVec 7) :
    shamtOf (encodeR f7 rs2 rs1 f3 rd op) = rs2 := by
  apply BitVec.eq_of_getLsbD_eq
  intro i hi
  rw [getLsbD_shamtOf, getLsbD_encodeR]
  interval_cases i <;> simp

@[simp] theorem opcodeOf_encodeI (imm : BitVec 12) (rs1 : Reg) (f3 : BitVec 3) (rd : Reg) (op : BitVec 7) :
    opcodeOf (encodeI imm rs1 f3 rd op) = op := by
  apply BitVec.eq_of_getLsbD_eq
  intro i hi
  rw [getLsbD_opcodeOf, getLsbD_encodeI]
  interval_cases i <;> simp

@[simp] theorem rdOf_encodeI (imm : BitVec 12) (rs1 : Reg) (f3 : BitVec 3) (rd : Reg) (op : BitVec 7) :
    rdOf (encodeI imm rs1 f3 rd op) = rd := by
  apply BitVec.eq_of_getLsbD_eq
  intro i hi
  rw [getLsbD_rdOf, getLsbD_encodeI]
  interval_cases i <;> simp

@[simp] theorem funct3Of_encodeI (imm : BitVec 12) (rs1 : Reg) (f3 : BitVec 3) (rd : Reg) (op : BitVec 7) :
    funct3Of (encodeI imm rs1 f3 rd op) = f3 := by
  apply BitVec.eq_of_getLsbD_eq
  intro i hi
  rw [getLsbD_funct3Of, getLsbD_encodeI]
  interval_cases i <;> simp

@[simp] theorem rs1Of_encodeI (imm : BitVec 12) (rs1 : Reg) (f3 : BitVec 3) (rd : Reg) (op : BitVec 7) :
    rs1Of (encodeI imm rs1 f3 rd op) = rs1 := by
  apply BitVec.eq_of_getLsbD_eq
  intro i hi
  rw [getLsbD_rs1Of, getLsbD_encodeI]
  interval_cases i <;> simp

@[simp] theorem immIOf_encodeI (imm : BitVec 12) (rs1 : Reg) (f3 : BitVec 3) (rd : Reg) (op : BitVec 7) :
    immIOf (encodeI imm rs1 f3 rd op) = imm := by
  apply BitVec.eq_of_getLsbD_eq
  intro i hi
  rw [getLsbD_immIOf, getLsbD_encodeI]
  interval_cases i <;> simp

@[simp] theorem opcodeOf_encodeS (imm : BitVec 12) (rs2 rs1 : Reg) (f3 : BitVec 3) (op : BitVec 7) :
    opcodeOf (encodeS imm rs2 rs1 f3 op) = op := by
  apply BitVec.eq_of_getLsbD_eq
  intro i hi
  rw [getLsbD_opcodeOf, getLsbD_encodeS _ _ _ _ _ (by omega)]
  interval_cases i <;> simp

@[simp] theorem funct3Of_encodeS (imm : BitVec 12) (rs2 rs1 : Reg) (f3 : BitVec 3) (op : BitVec 7) :
    funct3Of (encodeS imm rs2 rs1 f3 op) = f3 := by
  apply BitVec.eq_of_getLsbD_eq
  intro i hi
  rw [getLsbD_funct3Of, getLsbD_encodeS _ _ _ _ _ (by omega)]
  interval_cases i <;> simp

@[simp] theorem rs1Of_encodeS (imm : BitVec 12) (rs2 rs1 : Reg) (f3 : BitVec 3) (op : BitVec 7) :
    rs1Of (encodeS imm rs2 rs1 f3 op) = rs1 := by
  apply BitVec.eq_of_getLsbD_eq
  intro i hi
  rw [getLsbD_rs1Of, getLsbD_encodeS _ _ _ _ _ (by omega)]
  interval_cases i <;> simp

@[simp] theorem rs2Of_encodeS (imm : BitVec 12) (rs2 rs1 : Reg) (f3 : BitVec 3) (op : BitVec 7) :
    rs2Of (encodeS imm rs2 rs1 f3 op) = rs2 := by
  apply BitVec.eq_of_getLsbD_eq
  intro i hi
  rw [getLsbD_rs2Of, getLsbD_encodeS _ _ _ _ _ (by omega)]
  interval_cases i <;> simp

@[simp] theorem opcodeOf_encodeB (imm : BitVec 13) (rs2 rs1 : Reg) (f3 : BitVec 3) (op : BitVec 7) :
    opcodeOf (encodeB imm rs2 rs1 f3 op) = op := by
  apply BitVec.eq_of_getLsbD_eq
  intro i hi
  rw [getLsbD_opcodeOf, getLsbD_encodeB _ _ _ _ _ (by omega)]
  interval_cases i <;> simp

@[simp] theorem funct3Of_encodeB (imm : BitVec 13) (rs2 rs1 : Reg) (f3 : BitVec 3) (op : BitVec 7) :
    funct3Of (encodeB imm rs2 rs1 f3 op) = f3 := by
  apply BitVec.eq_of_getLsbD_eq
  intro i hi
  rw [getLsbD_funct3Of, getLsbD_encodeB _ _ _ _ _ (by omega)]
  interval_cases i <;> simp

@[simp] theorem rs1Of_encodeB (imm : BitVec 13) (rs2 rs1 : Reg) (f3 : BitVec 3) (op : BitVec 7) :
    rs1Of (encodeB imm rs2 rs1 f3 op) = rs1 := by
  apply BitVec.eq_of_getLsbD_eq
  intro i hi
  rw [getLsbD_rs1Of, getLsbD_encodeB _ _ _ _ _ (by omega)]
  interval_cases i <;> simp

@[simp] theorem rs2Of_encodeB (imm : BitVec 13) (rs2 rs1 : Reg) (f3 : BitVec 3) (op : BitVec 7) :
    rs2Of (encodeB imm rs2 rs1 f3 op) = rs2 := by
  apply BitVec.eq_of_getLsbD_eq
  intro i hi
  rw [getLsbD_rs2Of, getLsbD_encodeB _ _ _ _ _ (by omega)]
  interval_cases i <;> simp

@[simp] theorem opcodeOf_encodeU (imm : BitVec 20) (rd : Reg) (op : BitVec 7) :
    opcodeOf (encodeU imm rd op) = op := by
  apply BitVec.eq_of_getLsbD_eq
  intro i hi
  rw [getLsbD_opcodeOf, getLsbD_encodeU]
  interval_cases i <;> simp

@[simp] theorem rdOf_encodeU (imm : BitVec 20) (rd : Reg) (op : BitVec 7) :
    rdOf (encodeU imm rd op) = rd := by
  apply BitVec.eq_of_getLsbD_eq
  intro i hi
  rw [getLsbD_rdOf, getLsbD_encodeU]
  interval_cases i <;> simp

@[simp] theorem immUOf_encodeU (imm : BitVec 20) (rd : Reg) (op : BitVec 7) :
    immUOf (encodeU imm rd op) = imm := by
  apply BitVec.eq_of_getLsbD_eq
  intro i hi
  rw [getLsbD_immUOf, getLsbD_encodeU]
  interval_cases i <;> simp

@[simp] theorem opcodeOf_encodeJ (imm : BitVec 21) (rd : Reg) (op : BitVec 7) :
    opcodeOf (encodeJ imm rd op) = op := by
  apply BitVec.eq_of_getLsbD_eq
  intro i hi
  rw [getLsbD_opcodeOf, getLsbD_encodeJ _ _ _ (by omega)]
  interval_cases i <;> simp

@[simp] theorem rdOf_encodeJ (imm : BitVec 21) (rd : Reg) (op : BitVec 7) :
    rdOf (encodeJ imm rd op) = rd := by
  apply BitVec.eq_of_getLsbD_eq
  intro i hi
  rw [getLsbD_rdOf, getLsbD_encodeJ _ _ _ (by omega)]
  interval_cases i <;> simp

@[simp] theorem immSOf_encodeS (imm : BitVec 12) (rs2 rs1 : Reg) (f3 : BitVec 3) (op : BitVec 7) :
    immSOf (encodeS imm rs2 rs1 f3 op) = imm := by
  apply BitVec.eq_of_getLsbD_eq
  intro i hi
  simp only [immSOf, encodeS, BitVec.getLsbD_extractLsb', BitVec.getLsbD_append]
  interval_cases i <;> simp

theorem immBOf_encodeB {imm : BitVec 13} (h : evenB imm = true) (rs2 rs1 : Reg) (f3 : BitVec 3) (op : BitVec 7) :
    immBOf (encodeB imm rs2 rs1 f3 op) = imm := by
  have h0 : imm.getLsbD 0 = false := by simpa [evenB] using h
  apply BitVec.eq_of_getLsbD_eq
  intro i hi
  simp only [immBOf, encodeB, BitVec.getLsbD_extractLsb', BitVec.getLsbD_append]
  interval_cases i
  · simpa using h0
  all_goals simp

theorem immJOf_encodeJ {imm : BitVec 21} (h : evenJ imm = true) (rd : Reg) (op : BitVec 7) :
    immJOf (encodeJ imm rd op) = imm := by
  have h0 : imm.getLsbD 0 = false := by simpa [evenJ] using h
  apply BitVec.eq_of_getLsbD_eq
  intro i hi
  simp only [immJOf, encodeJ, BitVec.getLsbD_extractLsb', BitVec.getLsbD_append]
  interval_cases i
  · simpa using h0
  all_goals simp

/-! ## Constant bits under a mask (R73) -/

theorem encodeR_and_mask (f7 : BitVec 7) (rs2 rs1 : Reg) (f3 : BitVec 3) (rd : Reg) (op : BitVec 7) :
    encodeR f7 rs2 rs1 f3 rd op &&& 0xFE00707F#32 = encodeR f7 0 0 f3 0 op := by
  apply BitVec.eq_of_getLsbD_eq
  intro i hi
  rw [BitVec.getLsbD_and, getLsbD_encodeR, getLsbD_encodeR]
  interval_cases i <;> simp

theorem encodeI_and_mask (imm : BitVec 12) (rs1 : Reg) (f3 : BitVec 3) (rd : Reg) (op : BitVec 7) :
    encodeI imm rs1 f3 rd op &&& 0x0000707F#32 = encodeI 0 0 f3 0 op := by
  apply BitVec.eq_of_getLsbD_eq
  intro i hi
  rw [BitVec.getLsbD_and, getLsbD_encodeI, getLsbD_encodeI]
  interval_cases i <;> simp

theorem encodeS_and_mask (imm : BitVec 12) (rs2 rs1 : Reg) (f3 : BitVec 3) (op : BitVec 7) :
    encodeS imm rs2 rs1 f3 op &&& 0x0000707F#32 = encodeI 0 0 f3 0 op := by
  apply BitVec.eq_of_getLsbD_eq
  intro i hi
  rw [BitVec.getLsbD_and, getLsbD_encodeS _ _ _ _ _ hi, getLsbD_encodeI]
  interval_cases i <;> simp

theorem encodeB_and_mask (imm : BitVec 13) (rs2 rs1 : Reg) (f3 : BitVec 3) (op : BitVec 7) :
    encodeB imm rs2 rs1 f3 op &&& 0x0000707F#32 = encodeI 0 0 f3 0 op := by
  apply BitVec.eq_of_getLsbD_eq
  intro i hi
  rw [BitVec.getLsbD_and, getLsbD_encodeB _ _ _ _ _ hi, getLsbD_encodeI]
  interval_cases i <;> simp

theorem encodeU_and_mask (imm : BitVec 20) (rd : Reg) (op : BitVec 7) :
    encodeU imm rd op &&& 0x0000007F#32 = encodeU 0 0 op := by
  apply BitVec.eq_of_getLsbD_eq
  intro i hi
  rw [BitVec.getLsbD_and, getLsbD_encodeU, getLsbD_encodeU]
  interval_cases i <;> simp

theorem encodeJ_and_mask (imm : BitVec 21) (rd : Reg) (op : BitVec 7) :
    encodeJ imm rd op &&& 0x0000007F#32 = encodeU 0 0 op := by
  apply BitVec.eq_of_getLsbD_eq
  intro i hi
  rw [BitVec.getLsbD_and, getLsbD_encodeJ _ _ _ hi, getLsbD_encodeU]
  interval_cases i <;> simp

end Sys2Proof
end

