-- ==== Sys2Proof/Laws/State.lean ====
section
/-! SUPPORT. One lemma per field of State per update, and reading a register after writing one. -/

namespace Sys2Proof.Machine

@[simp] theorem State.setPc_regs (s : State) (t : Word) : (s.setPc t).regs = s.regs := rfl
@[simp] theorem State.setPc_pc (s : State) (t : Word) : (s.setPc t).pc = t := rfl
@[simp] theorem State.setPc_mem (s : State) (t : Word) : (s.setPc t).mem = s.mem := rfl
@[simp] theorem State.setPc_stored (s : State) (t : Word) : (s.setPc t).stored = s.stored := rfl
@[simp] theorem State.setPc_faulted (s : State) (t : Word) : (s.setPc t).faulted = s.faulted := rfl
@[simp] theorem State.setPc_params (s : State) (t : Word) : (s.setPc t).params = s.params := rfl
@[simp] theorem State.setPc_x (s : State) (t : Word) (r : Reg) : (s.setPc t).x r = s.x r := rfl
@[simp] theorem State.setPc_byteAt (s : State) (t : Word) (a : Nat) : (s.setPc t).byteAt a = s.byteAt a := rfl

@[simp] theorem State.setX_pc (s : State) (r : Reg) (v : Word) : (s.setX r v).pc = s.pc := by
  unfold State.setX; split <;> rfl
@[simp] theorem State.setX_mem (s : State) (r : Reg) (v : Word) : (s.setX r v).mem = s.mem := by
  unfold State.setX; split <;> rfl
@[simp] theorem State.setX_stored (s : State) (r : Reg) (v : Word) : (s.setX r v).stored = s.stored := by
  unfold State.setX; split <;> rfl
@[simp] theorem State.setX_faulted (s : State) (r : Reg) (v : Word) : (s.setX r v).faulted = s.faulted := by
  unfold State.setX; split <;> rfl
@[simp] theorem State.setX_params (s : State) (r : Reg) (v : Word) : (s.setX r v).params = s.params := by
  unfold State.setX; split <;> rfl
@[simp] theorem State.setX_byteAt (s : State) (r : Reg) (v : Word) (a : Nat) :
    (s.setX r v).byteAt a = s.byteAt a := by simp [State.byteAt]

@[simp] theorem State.storeWord_regs (s : State) (a v : Word) : (s.storeWord a v).regs = s.regs := rfl
@[simp] theorem State.storeWord_pc (s : State) (a v : Word) : (s.storeWord a v).pc = s.pc := rfl
@[simp] theorem State.storeWord_mem (s : State) (a v : Word) :
    (s.storeWord a v).mem = Memory.putWord s.mem a.toNat v := rfl
@[simp] theorem State.storeWord_stored (s : State) (a v : Word) :
    (s.storeWord a v).stored = addrInsert s.stored a.toNat := rfl
@[simp] theorem State.storeWord_faulted (s : State) (a v : Word) : (s.storeWord a v).faulted = s.faulted := rfl
@[simp] theorem State.storeWord_params (s : State) (a v : Word) : (s.storeWord a v).params = s.params := rfl
@[simp] theorem State.storeWord_x (s : State) (a v : Word) (r : Reg) : (s.storeWord a v).x r = s.x r := rfl

@[simp] theorem State.loadWord_regs (s : State) (a v : Word) : (s.loadWord a v).regs = s.regs := rfl
@[simp] theorem State.loadWord_pc (s : State) (a v : Word) : (s.loadWord a v).pc = s.pc := rfl
@[simp] theorem State.loadWord_mem (s : State) (a v : Word) :
    (s.loadWord a v).mem = Memory.putWord s.mem a.toNat v := rfl
@[simp] theorem State.loadWord_stored (s : State) (a v : Word) :
    (s.loadWord a v).stored = addrErase s.stored a.toNat := rfl
@[simp] theorem State.loadWord_faulted (s : State) (a v : Word) : (s.loadWord a v).faulted = s.faulted := rfl
@[simp] theorem State.loadWord_params (s : State) (a v : Word) : (s.loadWord a v).params = s.params := rfl
@[simp] theorem State.loadWord_x (s : State) (a v : Word) (r : Reg) : (s.loadWord a v).x r = s.x r := rfl

@[simp] theorem State.launch_regs (l : Launch) : (State.launch l).regs = l.regInit := rfl
@[simp] theorem State.launch_pc (l : Launch) : (State.launch l).pc = l.params.resetPc := rfl
@[simp] theorem State.launch_mem (l : Launch) : (State.launch l).mem = l.image := rfl
@[simp] theorem State.launch_stored (l : Launch) : (State.launch l).stored = [] := rfl
@[simp] theorem State.launch_faulted (l : Launch) : (State.launch l).faulted = none := rfl
@[simp] theorem State.launch_params (l : Launch) : (State.launch l).params = l.params := rfl

/-- Register 0 reads zero (R22). -/
@[simp] theorem State.x_zero (s : State) : s.x 0#5 = 0x00000000#32 := rfl

/-- A write to register 0 is discarded (R22). -/
@[simp] theorem State.setX_zero (s : State) (v : Word) : s.setX 0#5 v = s := rfl

/-- Two register numbers with the same entry of `regs` are the same, but for register 0. -/
theorem reg_eq_of_index {q r : Reg} (hq : q ≠ 0#5) (hr : r ≠ 0#5) (h : r.toNat - 1 = q.toNat - 1) : q = r := by
  have h0 : q.toNat ≠ 0 := fun e => hq (BitVec.eq_of_toNat_eq (by simpa using e))
  have h1 : r.toNat ≠ 0 := fun e => hr (BitVec.eq_of_toNat_eq (by simpa using e))
  exact BitVec.eq_of_toNat_eq (by omega)

/-- Reading any register after writing one (R10). -/
theorem State.x_setX (s : State) (r q : Reg) (v : Word) :
    (s.setX r v).x q = if q = 0#5 then 0x00000000#32 else if q = r then v else s.x q := by
  by_cases hq : q = 0#5
  · subst hq; rfl
  by_cases hr : r = 0#5
  · subst hr
    simp [hq]
  rw [if_neg hq]
  unfold State.x State.setX
  simp only [hq, hr, if_false]
  rw [Vector.getElem_set]
  by_cases h : r.toNat - 1 = q.toNat - 1
  · simp [h, reg_eq_of_index hq hr h]
  · have hne : q ≠ r := fun e => h (by rw [e])
    simp [h, hne]

@[simp] theorem State.x_setX_self (s : State) {r : Reg} (v : Word) (h : r ≠ 0#5) : (s.setX r v).x r = v := by
  simp [State.x_setX, h]

theorem State.x_setX_of_ne (s : State) {r q : Reg} (v : Word) (h : q ≠ r) : (s.setX r v).x q = s.x q := by
  by_cases hq : q = 0#5
  · subst hq; rfl
  · simp [State.x_setX, hq, h]

/-- Memory alone decides what a byte reads as. -/
theorem State.byteAt_congr {s t : State} (h : t.mem = s.mem) (a : Nat) : t.byteAt a = s.byteAt a := by
  simp [State.byteAt, h]

end Sys2Proof.Machine
end

