-- ==== Sys2Proof/Laws/Memory.lean ====
section
/-! SUPPORT. Memory and address sets: reading after writing, what a write keeps, and that every operation keeps the
canonical form. -/

namespace Sys2Proof.Machine

/-! ## Reading after writing -/

/-- A byte after one byte is fixed. -/
theorem Memory.find_put (m : Memory) (a c : Nat) (b : Byte) :
    Memory.find (m.put a b) c = if c = a then some b else Memory.find m c := by
  induction m with
  | nil => by_cases h : a = c <;> simp [Memory.put, Memory.find, h, eq_comm]
  | cons p m ih =>
    obtain ⟨k, v⟩ := p
    by_cases h1 : a < k
    · rw [Memory.put, if_pos h1]
      by_cases h : c = a
      · simp [Memory.find, h]
      · simp [Memory.find, h, Ne.symm h]
    · by_cases h2 : a = k
      · subst h2
        by_cases h : a = c <;> simp [Memory.put, Memory.find, h, eq_comm]
      · simp only [Memory.put, h1, h2, if_false, Memory.find, ih]
        by_cases h3 : k = c
        · subst h3; simp [Ne.symm h2]
        · simp [h3]

/-- A byte after a word is fixed. -/
theorem Memory.find_putWord (m : Memory) (a c : Nat) (v : Word) :
    Memory.find (m.putWord a v) c =
      if c = a + 3 then some (byteOfWord v 3) else if c = a + 2 then some (byteOfWord v 2)
      else if c = a + 1 then some (byteOfWord v 1) else if c = a then some (byteOfWord v 0) else Memory.find m c := by
  simp [Memory.putWord, Memory.find_put]

/-- A word fixed leaves every byte outside it alone. -/
theorem Memory.find_putWord_of_outside (m : Memory) {a c : Nat} (v : Word) (h : c < a ∨ a + 4 ≤ c) :
    Memory.find (m.putWord a v) c = Memory.find m c := by
  rw [Memory.find_putWord, if_neg (by omega), if_neg (by omega), if_neg (by omega), if_neg (by omega)]

/-- Every byte of a word fixed is listed. -/
theorem Memory.find_putWord_isSome (m : Memory) (a : Nat) (v : Word) {k : Nat} (h : k < 4) :
    (Memory.find (m.putWord a v) (a + k)).isSome = true := by
  rw [Memory.find_putWord]
  split
  · rfl
  split
  · rfl
  split
  · rfl
  split
  · rfl
  · omega

/-- A byte that is listed stays listed when a word is fixed. -/
theorem Memory.find_putWord_mono (m : Memory) (a c : Nat) (v : Word) (h : (Memory.find m c).isSome = true) :
    (Memory.find (m.putWord a v) c).isSome = true := by
  rw [Memory.find_putWord]
  repeat' split
  all_goals first | rfl | exact h

/-! ## The canonical form -/

theorem Memory.wf_iff (m : Memory) : m.wf = true ↔ m.Pairwise fun p q => p.1 < q.1 := by simp [Memory.wf]

/-- An address below every listed one is not listed. -/
theorem Memory.find_eq_none_of_lt {m : Memory} {a : Nat} (h : ∀ c ∈ m, a < c.1) : Memory.find m a = none := by
  induction m with
  | nil => rfl
  | cons p m ih =>
    have hp := h p (by simp)
    have : p.1 ≠ a := by omega
    simp [Memory.find, this, ih fun c hc => h c (by simp [hc])]

/-- What is listed after a byte is fixed: that byte, or what was listed. -/
theorem Memory.mem_put {m : Memory} {a : Nat} {b : Byte} {c : Host.Cell} (h : c ∈ m.put a b) : c = (a, b) ∨ c ∈ m := by
  induction m with
  | nil => simpa [Memory.put] using h
  | cons p m ih =>
    obtain ⟨k, v⟩ := p
    unfold Memory.put at h
    split at h
    · simpa using h
    split at h
    · rcases List.mem_cons.1 h with h | h
      · exact .inl h
      · exact .inr (List.mem_cons_of_mem _ h)
    · rcases List.mem_cons.1 h with h | h
      · exact .inr (by simp [h])
      · rcases ih h with h | h
        · exact .inl h
        · exact .inr (List.mem_cons_of_mem _ h)

/-- Fixing a byte keeps the canonical form. -/
theorem Memory.wf_put {m : Memory} (h : m.wf = true) (a : Nat) (b : Byte) : (m.put a b).wf = true := by
  rw [Memory.wf_iff] at h ⊢
  induction m with
  | nil => simp [Memory.put]
  | cons p m ih =>
    obtain ⟨k, v⟩ := p
    obtain ⟨hk, hm⟩ := List.pairwise_cons.1 h
    unfold Memory.put
    split
    · rename_i hlt
      refine List.pairwise_cons.2 ⟨fun c hc => ?_, h⟩
      rcases List.mem_cons.1 hc with hc | hc
      · simpa [hc] using hlt
      · exact Nat.lt_trans hlt (hk c hc)
    split
    · rename_i heq
      exact List.pairwise_cons.2 ⟨fun c hc => by simpa [heq] using hk c hc, hm⟩
    · rename_i h1 h2
      refine List.pairwise_cons.2 ⟨fun c hc => ?_, ih hm⟩
      rcases Memory.mem_put hc with hc | hc
      · subst hc
        show k < a
        omega
      · exact hk c hc

/-- Fixing a word keeps the canonical form. -/
theorem Memory.wf_putWord {m : Memory} (h : m.wf = true) (a : Nat) (v : Word) : (m.putWord a v).wf = true :=
  Memory.wf_put (Memory.wf_put (Memory.wf_put (Memory.wf_put h _ _) _ _) _ _) _ _

/-- What is listed after a word is fixed lies in that word or was listed. -/
theorem Memory.mem_putWord {m : Memory} {a : Nat} {v : Word} {c : Host.Cell} (h : c ∈ m.putWord a v) :
    (a ≤ c.1 ∧ c.1 < a + 4) ∨ c ∈ m := by
  rcases Memory.mem_put h with h | h
  · subst h; left; constructor <;> simp
  rcases Memory.mem_put h with h | h
  · subst h; left; constructor <;> simp
  rcases Memory.mem_put h with h | h
  · subst h; left; constructor <;> simp
  rcases Memory.mem_put h with h | h
  · subst h; left; constructor <;> simp
  · exact .inr h

theorem Memory.within_iff (m : Memory) (lo hi : Nat) : m.within lo hi = true ↔ ∀ c ∈ m, lo ≤ c.1 ∧ c.1 < hi := by
  simp [Memory.within]

/-! ## Address sets -/

/-- Membership after an address is put in. -/
@[simp] theorem mem_addrInsert (l : List Nat) (a c : Nat) : c ∈ addrInsert l a ↔ c = a ∨ c ∈ l := by
  induction l with
  | nil => simp [addrInsert]
  | cons k l ih =>
    unfold addrInsert
    split
    · simp
    split
    · rename_i h; subst h; simp
    · simp [ih]
      tauto

/-- Membership after an address is taken out. -/
@[simp] theorem mem_addrErase (l : List Nat) (a c : Nat) : c ∈ addrErase l a ↔ c ∈ l ∧ c ≠ a := by
  simp [addrErase]

theorem addrWf_iff (l : List Nat) : addrWf l = true ↔ l.Pairwise fun p q => p < q := by simp [addrWf]

/-- Putting an address in keeps the canonical form. -/
theorem addrWf_addrInsert {l : List Nat} (h : addrWf l = true) (a : Nat) : addrWf (addrInsert l a) = true := by
  rw [addrWf_iff] at h ⊢
  induction l with
  | nil => simp [addrInsert]
  | cons k l ih =>
    obtain ⟨hk, hl⟩ := List.pairwise_cons.1 h
    unfold addrInsert
    split
    · rename_i hlt
      refine List.pairwise_cons.2 ⟨fun c hc => ?_, h⟩
      rcases List.mem_cons.1 hc with hc | hc
      · omega
      · exact Nat.lt_trans hlt (hk c hc)
    split
    · exact h
    · refine List.pairwise_cons.2 ⟨fun c hc => ?_, ih hl⟩
      rcases (mem_addrInsert l a c).1 hc with hc | hc
      · omega
      · exact hk c hc

/-- Taking an address out keeps the canonical form. -/
theorem addrWf_addrErase {l : List Nat} (h : addrWf l = true) (a : Nat) : addrWf (addrErase l a) = true := by
  rw [addrWf_iff] at h ⊢
  exact h.filter _

/-! ## Words in bytes (R41) -/

/-- A word is put together from its own bytes. -/
theorem wordOfBytes_byteOfWord (v : Word) :
    wordOfBytes (byteOfWord v 0) (byteOfWord v 1) (byteOfWord v 2) (byteOfWord v 3) = v := by
  apply BitVec.eq_of_getLsbD_eq
  intro i hi
  simp only [wordOfBytes, byteOfWord, BitVec.getLsbD_append, BitVec.getLsbD_extractLsb']
  by_cases h0 : i < 8
  · simp [h0]
  by_cases h1 : i < 16
  · simp [h0, show i - 8 < 8 by omega, show 8 + (i - 8) = i by omega]
  by_cases h2 : i < 24
  · simp [h0, show ¬ i - 8 < 8 by omega, show i - 8 - 8 < 8 by omega, show 16 + (i - 8 - 8) = i by omega]
  · simp [h0, show ¬ i - 8 < 8 by omega, show ¬ i - 8 - 8 < 8 by omega, show i - 8 - 8 - 8 < 8 by omega,
      show 24 + (i - 8 - 8 - 8) = i by omega]

/-- A byte of the state after a store (R47). -/
theorem State.byteAt_storeWord (s : State) (a v : Word) (c : Nat) :
    (s.storeWord a v).byteAt c =
      if c = a.toNat + 3 then byteOfWord v 3 else if c = a.toNat + 2 then byteOfWord v 2
      else if c = a.toNat + 1 then byteOfWord v 1 else if c = a.toNat then byteOfWord v 0 else s.byteAt c := by
  simp only [State.byteAt, State.storeWord_mem, Memory.find_putWord]
  repeat' split
  all_goals rfl

/-- The word stored is the word read back (R47). -/
theorem State.wordAt_storeWord_self (s : State) (a v : Word) : (s.storeWord a v).wordAt a = v := by
  simp [State.wordAt, State.byteAt_storeWord, wordOfBytes_byteOfWord]

/-- A store leaves every word apart from it alone (R47). -/
theorem State.wordAt_storeWord_of_apart (s : State) (a c v : Word)
    (h : c.toNat + 4 ≤ a.toNat ∨ a.toNat + 4 ≤ c.toNat) : (s.storeWord a v).wordAt c = s.wordAt c := by
  have hb : ∀ k < 4, (s.storeWord a v).byteAt (c.toNat + k) = s.byteAt (c.toNat + k) := fun k hk => by
    rw [State.byteAt_storeWord, if_neg (by omega), if_neg (by omega), if_neg (by omega), if_neg (by omega)]
  have h0 := hb 0 (by omega)
  rw [Nat.add_zero] at h0
  simp [State.wordAt, h0, hb 1 (by omega), hb 2 (by omega), hb 3 (by omega)]

/-- A word placed from outside reads back. -/
theorem State.wordAt_loadWord_self (s : State) (a v : Word) : (s.loadWord a v).wordAt a = v := by
  have h : ∀ c, (s.loadWord a v).byteAt c = (s.storeWord a v).byteAt c := fun c => State.byteAt_congr rfl c
  simpa [State.wordAt, h] using State.wordAt_storeWord_self s a v

/-- The registers and PC have no part in what a word reads as. -/
@[simp] theorem State.wordAt_setPc (s : State) (t a : Word) : (s.setPc t).wordAt a = s.wordAt a := rfl

@[simp] theorem State.wordAt_setX (s : State) (r : Reg) (v a : Word) : (s.setX r v).wordAt a = s.wordAt a := by
  simp [State.wordAt]

end Sys2Proof.Machine
end

