-- ==== Sys2Proof/Laws/Ops.lean ====
section
/-! SUPPORT. One lemma for each shared operation that says once everything it can do, and the operand forms and conditions as
arithmetic. -/

namespace Sys2Proof.Machine

/-! ## Addresses -/

/-- Bits 1:0 zero and a multiple of 4 are one thing (R42). -/
theorem aligned_iff (a : Word) : aligned a = true ↔ IsWordAddress a := by
  unfold aligned IsWordAddress
  rw [decide_eq_true_iff, ← BitVec.toNat_inj]
  simp [BitVec.extractLsb'_toNat]

theorem aligned_eq_false_iff (a : Word) : aligned a = false ↔ ¬ IsWordAddress a := by
  rw [← Bool.not_eq_true, aligned_iff]

/-- `exists(addr)` (R47). -/
theorem State.wordExists_iff (s : State) (a : Word) : s.wordExists a = true ↔ s.Exists a := by
  simp [State.wordExists, State.Exists]

theorem State.wordExists_eq_false_iff (s : State) (a : Word) : s.wordExists a = false ↔ ¬ s.Exists a := by
  rw [← Bool.not_eq_true, State.wordExists_iff]

/-- PC at the next word stays a multiple of 4 (R26). -/
theorem State.nextPc_isWordAddress {s : State} (h : IsWordAddress s.pc) : IsWordAddress s.nextPc := by
  unfold IsWordAddress at *
  simp only [State.nextPc, BitVec.toNat_add, BitVec.toNat_ofNat]
  omega

/-! ## Conditions (R7) -/

theorem ltSigned_iff (a b : Word) : ltSigned a b = true ↔ a.toInt < b.toInt := by simp [ltSigned]
theorem geSigned_iff (a b : Word) : geSigned a b = true ↔ b.toInt ≤ a.toInt := by simp [geSigned, ltSigned]
theorem ltUnsigned_iff (a b : Word) : ltUnsigned a b = true ↔ a.toNat < b.toNat := by simp [ltUnsigned]
theorem geUnsigned_iff (a b : Word) : geUnsigned a b = true ↔ b.toNat ≤ a.toNat := by simp [geUnsigned, ltUnsigned]
theorem eqWord_iff (a b : Word) : eqWord a b = true ↔ a = b := by simp [eqWord]
theorem neWord_iff (a b : Word) : neWord a b = true ↔ a ≠ b := by simp [neWord, eqWord]

/-! ## Operand forms (R8, R70, R101) -/

/-- The U-immediate's value as a number (R70). -/
theorem upper_toNat (imm : BitVec 20) : (upper imm).toNat = imm.toNat * 2 ^ 12 := by
  unfold upper
  rw [BitVec.toNat_append, BitVec.toNat_ofNat, Nat.zero_mod, Nat.or_zero, Nat.shiftLeft_eq]

/-- The shift amount as a number: the register modulo 32 (R101). -/
theorem shiftAmount_toNat (v : Word) : (shiftAmount v).toNat = v.toNat % 32 := by
  simp [shiftAmount, BitVec.extractLsb'_toNat]

/-- `a << n` bit by bit (R8). -/
theorem shiftLeft_getLsbD (a : Word) (n : BitVec 5) {i : Nat} (hi : i < 32) :
    (shiftLeft a n).getLsbD i = if i < n.toNat then false else a.getLsbD (i - n.toNat) := by
  by_cases h : i < n.toNat <;> simp only [shiftLeft, BitVec.getLsbD_shiftLeft, hi, h] <;> simp

/-- `a >> n` bit by bit (R8). -/
theorem shiftRightLogical_getLsbD (a : Word) (n : BitVec 5) (i : Nat) :
    (shiftRightLogical a n).getLsbD i = a.getLsbD (i + n.toNat) := by
  simp [shiftRightLogical, Nat.add_comm]

/-- `a >>> n` bit by bit (R8). -/
theorem shiftRightArith_getLsbD (a : Word) (n : BitVec 5) {i : Nat} (hi : i < 32) :
    (shiftRightArith a n).getLsbD i = if i + n.toNat < 32 then a.getLsbD (i + n.toNat) else a.getLsbD 31 := by
  have : ¬ 32 ≤ i := by omega
  simp [shiftRightArith, BitVec.getLsbD_sshiftRight, this, Nat.add_comm, BitVec.msb_eq_getLsbD_last]

/-! ## Ends of an instruction -/

/-- `raise` answers a next state in which only the mark differs (R12, R170). -/
theorem State.raise_eq_next_iff (s t : State) (f : Fault) : s.raise f = .next t ↔ t = { s with faulted := some f } := by
  simp [State.raise, eq_comm]

/-- Writing one register and PC, and nothing else. -/
theorem State.writesRegister_setX_setPc (s : State) (rd : Reg) (v target : Word) :
    WritesRegister s ((s.setX rd v).setPc target) rd v target where
  zero := rfl
  dest h := by simp [h]
  others r h := by simp [State.x_setX_of_ne s v h]
  pc := rfl
  memory a := by simp
  stored := by simp
  mark := by simp
  params := by simp

/-- Writing PC, and nothing else. -/
theorem State.writesOnlyPc_setPc (s : State) (target : Word) : WritesOnlyPc s (s.setPc target) target where
  regs _ := rfl
  pc := rfl
  memory _ := rfl
  stored := rfl
  mark := rfl
  params := rfl

/-- All that `retire` can do: it answers a next state, with `rd` written and PC at the next word. -/
theorem State.retire_spec (s : State) (rd : Reg) (v : Word) :
    ∃ t, s.retire rd v = .next t ∧ t = (s.setX rd v).setPc s.nextPc ∧ WritesRegister s t rd v s.nextPc :=
  ⟨_, rfl, rfl, s.writesRegister_setX_setPc rd v s.nextPc⟩

/-- All that `jump` can do: the link is written and PC is the target, or the target is misaligned and only the mark is set. -/
theorem State.jump_cases {s t : State} {rd : Reg} {target : Word} (h : s.jump rd target = .next t) :
    (IsWordAddress target ∧ t = (s.setX rd s.nextPc).setPc target) ∨
    (¬ IsWordAddress target ∧ t = { s with faulted := some (.instructionAddressMisaligned target) }) := by
  unfold State.jump at h
  split at h
  · rename_i ha
    exact .inl ⟨(aligned_iff _).1 ha, by simpa [eq_comm] using h⟩
  · rename_i ha
    exact .inr ⟨fun hw => ha ((aligned_iff _).2 hw), (s.raise_eq_next_iff t _).1 h⟩

/-- All that `branch` can do: taken to an aligned target, taken to a misaligned one with only the mark set, or not taken. -/
theorem State.branch_cases {s t : State} {taken : Bool} {target : Word} (h : s.branch taken target = .next t) :
    (taken = true ∧ IsWordAddress target ∧ t = s.setPc target) ∨
    (taken = true ∧ ¬ IsWordAddress target ∧ t = { s with faulted := some (.instructionAddressMisaligned target) }) ∨
    (taken = false ∧ t = s.setPc s.nextPc) := by
  unfold State.branch at h
  split at h
  · rename_i ht
    split at h
    · rename_i ha
      exact .inl ⟨ht, (aligned_iff _).1 ha, by simpa [eq_comm] using h⟩
    · rename_i ha
      exact .inr (.inl ⟨ht, fun hw => ha ((aligned_iff _).2 hw), (s.raise_eq_next_iff t _).1 h⟩)
  · rename_i ht
    exact .inr (.inr ⟨by simpa using ht, by simpa [eq_comm] using h⟩)

/-! ## The access primitives (R47) -/

/-- All that `memRead` can do. -/
theorem State.memRead_cases (s : State) (a : Word) :
    (IsWordAddress a ∧ s.Exists a ∧ s.memRead a = .ok (s.wordAt a)) ∨
    (¬ IsWordAddress a ∧ s.memRead a = .error (.loadAddressMisaligned a)) ∨
    (IsWordAddress a ∧ ¬ s.Exists a ∧ s.memRead a = .error (.loadAccessFault a)) := by
  rw [← aligned_iff, ← State.wordExists_iff]
  unfold State.memRead
  cases aligned a <;> cases s.wordExists a <;> simp

/-- All that `memWrite` can do. -/
theorem State.memWrite_cases (s : State) (a v : Word) :
    (IsWordAddress a ∧ s.Exists a ∧ s.memWrite a v = .ok (s.storeWord a v)) ∨
    (¬ IsWordAddress a ∧ s.memWrite a v = .error (.storeAddressMisaligned a)) ∨
    (IsWordAddress a ∧ ¬ s.Exists a ∧ s.memWrite a v = .error (.storeAccessFault a)) := by
  rw [← aligned_iff, ← State.wordExists_iff]
  unfold State.memWrite
  cases aligned a <;> cases s.wordExists a <;> simp

/-- All that `fetch` can do. -/
theorem State.fetch_cases (s : State) (a : Word) :
    (s.Exists a ∧ (s.params.ifetchCoherent = true ∨ a.toNat ∉ s.stored) ∧ s.fetch a = .ok (s.wordAt a)) ∨
    (¬ s.Exists a ∧ s.fetch a = .error (.instructionAccessFault a)) ∨
    (s.Exists a ∧ s.params.ifetchCoherent = false ∧ a.toNat ∈ s.stored ∧ s.fetch a = .error (.fetchAfterStore a)) := by
  rw [← State.wordExists_iff]
  unfold State.fetch
  by_cases hm : a.toNat ∈ s.stored <;> cases s.wordExists a <;> cases s.params.ifetchCoherent <;> simp [hm]

/-- All that a store leaves. -/
theorem State.storesWord_storeWord_setPc (s : State) (ea v : Word) :
    StoresWord s ((s.storeWord ea v).setPc s.nextPc) ea v where
  byte0 := by simp [State.byteAt_storeWord, byteOfWord]
  byte1 := by simp [State.byteAt_storeWord, byteOfWord]
  byte2 := by simp [State.byteAt_storeWord, byteOfWord]
  byte3 := by simp [State.byteAt_storeWord, byteOfWord]
  others a h := by
    rw [State.setPc_byteAt, State.byteAt_storeWord, if_neg (by omega), if_neg (by omega), if_neg (by omega), if_neg (by omega)]
  stored a := by simp [or_comm]
  regs _ := rfl
  pc := rfl
  mark := rfl
  params := rfl

/-! ## The step (R193) -/

/-- All that `step` can do, by where the machine stands and what the fetch and the decoder answer. -/
theorem step_cases (s : State) :
    (∃ f, s.faulted = some f ∧ step s = .fault f) ∨
    (s.Ended ∧ step s = .refused .runEnded) ∨
    (s.Running ∧ ∃ f, s.fetch s.pc = .error f ∧ step s = s.raise f) ∨
    (s.Running ∧ s.fetch s.pc = .ok (s.wordAt s.pc) ∧ (∃ e, decodeWord (s.wordAt s.pc) = .error e) ∧
      step s = s.raise (.illegalInstruction (s.wordAt s.pc))) ∨
    (s.Running ∧ s.fetch s.pc = .ok (s.wordAt s.pc) ∧ ∃ i, decodeWord (s.wordAt s.pc) = .ok i ∧ step s = exec i s) := by
  unfold step
  cases hf : s.faulted with
  | some f => exact .inl ⟨f, rfl, rfl⟩
  | none =>
    by_cases hp : s.pc = s.params.haltPc
    · exact .inr (.inl ⟨⟨hf, hp⟩, by simp [hp]⟩)
    · have hr : s.Running := ⟨hf, hp⟩
      rcases s.fetch_cases s.pc with ⟨-, -, h⟩ | ⟨-, h⟩ | ⟨-, -, -, h⟩
      · cases hd : decodeWord (s.wordAt s.pc) with
        | error e => exact .inr (.inr (.inr (.inl ⟨hr, h, ⟨e, rfl⟩, by simp [hp, h, hd]⟩)))
        | ok i => exact .inr (.inr (.inr (.inr ⟨hr, h, i, rfl, by simp [hp, h, hd]⟩)))
      · exact .inr (.inr (.inl ⟨hr, _, h, by simp [hp, h]⟩))
      · exact .inr (.inr (.inl ⟨hr, _, h, by simp [hp, h]⟩))

end Sys2Proof.Machine
end

