-- ==== Sys2Proof/Laws/Exec.lean ====
section
/-! SUPPORT. Which shared operation each instruction ends in, said once for all 31, and the operand forms of a sign-extended
immediate. -/

namespace Sys2Proof.Machine

/-- Every instruction ends in one of five ways (R23, R74): it writes one register and goes on, it loads, it stores, it jumps, or it
branches. Each case also says what the instruction names as destination, as effective address and as target. -/
theorem exec_shape (i : Instr) (s : State) :
    (∃ rd v, i.dest = some rd ∧ i.takenTarget s = none ∧ i.loadAddress s = none ∧ i.storeAddress s = none ∧
      exec i s = s.retire rd v) ∨
    (∃ rd rs1 imm, i = .lw rd rs1 imm ∧ i.loadAddress s = some (s.effAddr rs1 imm) ∧
      ((∃ v, s.memRead (s.effAddr rs1 imm) = .ok v ∧ exec i s = s.retire rd v) ∨
       (∃ f, s.memRead (s.effAddr rs1 imm) = .error f ∧ exec i s = s.raise f))) ∨
    (∃ rs2 rs1 imm, i = .sw rs2 rs1 imm ∧ i.storeAddress s = some (s.effAddr rs1 imm) ∧
      ((∃ u, s.memWrite (s.effAddr rs1 imm) (s.x rs2) = .ok u ∧ exec i s = .next (u.setPc s.nextPc)) ∨
       (∃ f, s.memWrite (s.effAddr rs1 imm) (s.x rs2) = .error f ∧ exec i s = s.raise f))) ∨
    (∃ rd target, i.dest = some rd ∧ i.takenTarget s = some target ∧ i.loadAddress s = none ∧ i.storeAddress s = none ∧
      exec i s = s.jump rd target) ∨
    (∃ taken target, i.dest = none ∧ i.takenTarget s = (if taken then some target else none) ∧ i.loadAddress s = none ∧
      i.storeAddress s = none ∧ exec i s = s.branch taken target) := by
  cases i
  case lw rd rs1 imm =>
    refine .inr (.inl ⟨rd, rs1, imm, rfl, rfl, ?_⟩)
    cases h : s.memRead (s.effAddr rs1 imm) with
    | ok v => exact .inl ⟨v, rfl, by simp only [exec, execLw, h]⟩
    | error f => exact .inr ⟨f, rfl, by simp only [exec, execLw, h]⟩
  case sw rs2 rs1 imm =>
    refine .inr (.inr (.inl ⟨rs2, rs1, imm, rfl, rfl, ?_⟩))
    cases h : s.memWrite (s.effAddr rs1 imm) (s.x rs2) with
    | ok u => exact .inl ⟨u, rfl, by simp only [exec, execSw, h]⟩
    | error f => exact .inr ⟨f, rfl, by simp only [exec, execSw, h]⟩
  case jal => exact .inr (.inr (.inr (.inl ⟨_, _, rfl, rfl, rfl, rfl, rfl⟩)))
  case jalr => exact .inr (.inr (.inr (.inl ⟨_, _, rfl, rfl, rfl, rfl, rfl⟩)))
  case beq => exact .inr (.inr (.inr (.inr ⟨_, _, rfl, by simp only [Instr.takenTarget, eqWord_iff]; rfl, rfl, rfl, rfl⟩)))
  case bne => exact .inr (.inr (.inr (.inr ⟨_, _, rfl, by simp only [Instr.takenTarget, neWord_iff]; rfl, rfl, rfl, rfl⟩)))
  case blt => exact .inr (.inr (.inr (.inr ⟨_, _, rfl, by simp only [Instr.takenTarget, ltSigned_iff]; rfl, rfl, rfl, rfl⟩)))
  case bge => exact .inr (.inr (.inr (.inr ⟨_, _, rfl, by simp only [Instr.takenTarget, geSigned_iff]; rfl, rfl, rfl, rfl⟩)))
  case bltu => exact .inr (.inr (.inr (.inr ⟨_, _, rfl, by simp only [Instr.takenTarget, ltUnsigned_iff]; rfl, rfl, rfl, rfl⟩)))
  case bgeu => exact .inr (.inr (.inr (.inr ⟨_, _, rfl, by simp only [Instr.takenTarget, geUnsigned_iff]; rfl, rfl, rfl, rfl⟩)))
  all_goals exact .inl ⟨_, _, rfl, rfl, rfl, rfl, rfl⟩

/-- A sign-extended immediate has the immediate's signed value (R9). -/
theorem sext_toInt {n : Nat} (hn : n ≤ 32) (imm : BitVec n) : (sext imm).toInt = imm.toInt := by
  unfold sext
  exact BitVec.toInt_signExtend_of_le hn

/-- A sign-extended immediate bit by bit (R9). -/
theorem sext_getLsbD {n : Nat} (imm : BitVec n) {i : Nat} (hi : i < 32) :
    (sext imm).getLsbD i = if i < n then imm.getLsbD i else imm.getLsbD (n - 1) := by
  unfold sext
  rw [BitVec.getLsbD_signExtend, BitVec.msb_eq_getLsbD_last]
  simp only [hi, decide_true, Bool.true_and]

/-- A jump to an aligned target (R150). -/
theorem State.jump_of_isWordAddress (s : State) (rd : Reg) {target : Word} (h : IsWordAddress target) :
    s.jump rd target = .next ((s.setX rd s.nextPc).setPc target) := by
  rw [State.jump, if_pos ((aligned_iff _).2 h)]

/-- A branch taken to an aligned target (R160). -/
theorem State.branch_of_taken (s : State) {taken : Bool} {target : Word} (ht : taken = true) (h : IsWordAddress target) :
    s.branch taken target = .next (s.setPc target) := by
  rw [State.branch, if_pos ht, if_pos ((aligned_iff _).2 h)]

/-- A branch that is not taken (R160). -/
theorem State.branch_of_not_taken (s : State) {taken : Bool} (target : Word) (ht : taken = false) :
    s.branch taken target = .next (s.setPc s.nextPc) := by
  simp [State.branch, ht]

end Sys2Proof.Machine
end

