-- ==== Sys2Proof/Laws/PerInstr.lean ====
section
/-! SUPPORT. A family of per-instruction statements: the encoder writes each instruction's constant bits as its row of the opcode
map gives them (spec rule R73). -/

namespace Sys2Proof.Laws

/-- The encoded word matches the instruction's row: `inst & mask = match` (R73). -/
def EncodesItsRow.Statement (i : Instr) : Prop := encode i &&& i.row.1 = i.row.2

theorem EncodesItsRow.add (rd rs1 rs2 : Reg) : EncodesItsRow.Statement (.add rd rs1 rs2) :=
  encodeR_and_mask _ _ _ _ _ _

theorem EncodesItsRow.sub (rd rs1 rs2 : Reg) : EncodesItsRow.Statement (.sub rd rs1 rs2) :=
  encodeR_and_mask _ _ _ _ _ _

theorem EncodesItsRow.and (rd rs1 rs2 : Reg) : EncodesItsRow.Statement (.and rd rs1 rs2) :=
  encodeR_and_mask _ _ _ _ _ _

theorem EncodesItsRow.or (rd rs1 rs2 : Reg) : EncodesItsRow.Statement (.or rd rs1 rs2) :=
  encodeR_and_mask _ _ _ _ _ _

theorem EncodesItsRow.xor (rd rs1 rs2 : Reg) : EncodesItsRow.Statement (.xor rd rs1 rs2) :=
  encodeR_and_mask _ _ _ _ _ _

theorem EncodesItsRow.slt (rd rs1 rs2 : Reg) : EncodesItsRow.Statement (.slt rd rs1 rs2) :=
  encodeR_and_mask _ _ _ _ _ _

theorem EncodesItsRow.sltu (rd rs1 rs2 : Reg) : EncodesItsRow.Statement (.sltu rd rs1 rs2) :=
  encodeR_and_mask _ _ _ _ _ _

theorem EncodesItsRow.sra (rd rs1 rs2 : Reg) : EncodesItsRow.Statement (.sra rd rs1 rs2) :=
  encodeR_and_mask _ _ _ _ _ _

theorem EncodesItsRow.srl (rd rs1 rs2 : Reg) : EncodesItsRow.Statement (.srl rd rs1 rs2) :=
  encodeR_and_mask _ _ _ _ _ _

theorem EncodesItsRow.sll (rd rs1 rs2 : Reg) : EncodesItsRow.Statement (.sll rd rs1 rs2) :=
  encodeR_and_mask _ _ _ _ _ _

theorem EncodesItsRow.addi (rd rs1 : Reg) (imm : BitVec 12) : EncodesItsRow.Statement (.addi rd rs1 imm) :=
  encodeI_and_mask _ _ _ _ _

theorem EncodesItsRow.andi (rd rs1 : Reg) (imm : BitVec 12) : EncodesItsRow.Statement (.andi rd rs1 imm) :=
  encodeI_and_mask _ _ _ _ _

theorem EncodesItsRow.ori (rd rs1 : Reg) (imm : BitVec 12) : EncodesItsRow.Statement (.ori rd rs1 imm) :=
  encodeI_and_mask _ _ _ _ _

theorem EncodesItsRow.xori (rd rs1 : Reg) (imm : BitVec 12) : EncodesItsRow.Statement (.xori rd rs1 imm) :=
  encodeI_and_mask _ _ _ _ _

theorem EncodesItsRow.slti (rd rs1 : Reg) (imm : BitVec 12) : EncodesItsRow.Statement (.slti rd rs1 imm) :=
  encodeI_and_mask _ _ _ _ _

theorem EncodesItsRow.sltiu (rd rs1 : Reg) (imm : BitVec 12) : EncodesItsRow.Statement (.sltiu rd rs1 imm) :=
  encodeI_and_mask _ _ _ _ _

theorem EncodesItsRow.srai (rd rs1 : Reg) (shamt : BitVec 5) : EncodesItsRow.Statement (.srai rd rs1 shamt) :=
  encodeR_and_mask _ _ _ _ _ _

theorem EncodesItsRow.srli (rd rs1 : Reg) (shamt : BitVec 5) : EncodesItsRow.Statement (.srli rd rs1 shamt) :=
  encodeR_and_mask _ _ _ _ _ _

theorem EncodesItsRow.slli (rd rs1 : Reg) (shamt : BitVec 5) : EncodesItsRow.Statement (.slli rd rs1 shamt) :=
  encodeR_and_mask _ _ _ _ _ _

theorem EncodesItsRow.lui (rd : Reg) (imm : BitVec 20) : EncodesItsRow.Statement (.lui rd imm) :=
  encodeU_and_mask _ _ _

theorem EncodesItsRow.auipc (rd : Reg) (imm : BitVec 20) : EncodesItsRow.Statement (.auipc rd imm) :=
  encodeU_and_mask _ _ _

theorem EncodesItsRow.lw (rd rs1 : Reg) (imm : BitVec 12) : EncodesItsRow.Statement (.lw rd rs1 imm) :=
  encodeI_and_mask _ _ _ _ _

theorem EncodesItsRow.sw (rs2 rs1 : Reg) (imm : BitVec 12) : EncodesItsRow.Statement (.sw rs2 rs1 imm) :=
  encodeS_and_mask _ _ _ _ _

theorem EncodesItsRow.jal (rd : Reg) (imm : BitVec 21) : EncodesItsRow.Statement (.jal rd imm) :=
  encodeJ_and_mask _ _ _

theorem EncodesItsRow.jalr (rd rs1 : Reg) (imm : BitVec 12) : EncodesItsRow.Statement (.jalr rd rs1 imm) :=
  encodeI_and_mask _ _ _ _ _

theorem EncodesItsRow.beq (rs1 rs2 : Reg) (imm : BitVec 13) : EncodesItsRow.Statement (.beq rs1 rs2 imm) :=
  encodeB_and_mask _ _ _ _ _

theorem EncodesItsRow.bne (rs1 rs2 : Reg) (imm : BitVec 13) : EncodesItsRow.Statement (.bne rs1 rs2 imm) :=
  encodeB_and_mask _ _ _ _ _

theorem EncodesItsRow.blt (rs1 rs2 : Reg) (imm : BitVec 13) : EncodesItsRow.Statement (.blt rs1 rs2 imm) :=
  encodeB_and_mask _ _ _ _ _

theorem EncodesItsRow.bge (rs1 rs2 : Reg) (imm : BitVec 13) : EncodesItsRow.Statement (.bge rs1 rs2 imm) :=
  encodeB_and_mask _ _ _ _ _

theorem EncodesItsRow.bltu (rs1 rs2 : Reg) (imm : BitVec 13) : EncodesItsRow.Statement (.bltu rs1 rs2 imm) :=
  encodeB_and_mask _ _ _ _ _

theorem EncodesItsRow.bgeu (rs1 rs2 : Reg) (imm : BitVec 13) : EncodesItsRow.Statement (.bgeu rs1 rs2 imm) :=
  encodeB_and_mask _ _ _ _ _

end Sys2Proof.Laws
end

