-- ==== Sys2Proof/Tests/Slice0.lean ====
section
/-! SUPPORT. Tests. Words and expected values are those of the spec: the figures of 30_encoding.md and files 40 to 44, and the vectors
V<n> of 95_test_vectors.md (named where used). Every `witness_` theorem shows a state and operands that meet the hypotheses of
the statement it names. -/

namespace Sys2Proof.Tests
open Sys2Proof.Machine

/-! ## Ill-formed terms are refused (R69, R71, R86) -/

theorem test_wellFormed_refuses_odd_beq : (Instr.beq 6#5 7#5 0x0011#13).wellFormed = false := by decide
theorem test_wellFormed_refuses_odd_bne : (Instr.bne 6#5 7#5 0x0011#13).wellFormed = false := by decide
theorem test_wellFormed_refuses_odd_blt : (Instr.blt 6#5 7#5 0x0011#13).wellFormed = false := by decide
theorem test_wellFormed_refuses_odd_bge : (Instr.bge 6#5 7#5 0x0011#13).wellFormed = false := by decide
theorem test_wellFormed_refuses_odd_bltu : (Instr.bltu 6#5 7#5 0x0011#13).wellFormed = false := by decide
theorem test_wellFormed_refuses_odd_bgeu : (Instr.bgeu 6#5 7#5 0x0011#13).wellFormed = false := by decide
theorem test_wellFormed_refuses_odd_jal : (Instr.jal 1#5 0x000001#21).wellFormed = false := by decide
theorem test_wellFormed_takes_even : (Instr.beq 6#5 7#5 0x1FFE#13).wellFormed = true ∧ (Instr.jal 1#5 0x1FFFFE#21).wellFormed = true := by
  decide

/-! ## Every constructor's word, bit by bit (R63 to R73) -/

theorem test_decode_add : decodeTableWord 32 0b0000000_00111_00110_000_00101_0110011 = some (.add 5#5 6#5 7#5) := by decide
theorem test_decode_sub : decodeTableWord 32 0b0100000_00111_00110_000_00101_0110011 = some (.sub 5#5 6#5 7#5) := by decide
theorem test_decode_and : decodeTableWord 32 0b0000000_00111_00110_111_00101_0110011 = some (.and 5#5 6#5 7#5) := by decide
theorem test_decode_or : decodeTableWord 32 0b0000000_00111_00110_110_00101_0110011 = some (.or 5#5 6#5 7#5) := by decide
theorem test_decode_xor : decodeTableWord 32 0b0000000_00111_00110_100_00101_0110011 = some (.xor 5#5 6#5 7#5) := by decide
theorem test_decode_slt : decodeTableWord 32 0b0000000_00111_00110_010_00101_0110011 = some (.slt 5#5 6#5 7#5) := by decide
theorem test_decode_sltu : decodeTableWord 32 0b0000000_00111_00110_011_00101_0110011 = some (.sltu 5#5 6#5 7#5) := by decide
theorem test_decode_sra : decodeTableWord 32 0b0100000_00111_00110_101_00101_0110011 = some (.sra 5#5 6#5 7#5) := by decide
theorem test_decode_srl : decodeTableWord 32 0b0000000_00111_00110_101_00101_0110011 = some (.srl 5#5 6#5 7#5) := by decide
theorem test_decode_sll : decodeTableWord 32 0b0000000_00111_00110_001_00101_0110011 = some (.sll 5#5 6#5 7#5) := by decide
theorem test_decode_addi : decodeTableWord 32 0b111111111111_00110_000_00101_0010011 = some (.addi 5#5 6#5 0xFFF#12) := by decide
theorem test_decode_andi : decodeTableWord 32 0b100000000000_00110_111_00101_0010011 = some (.andi 5#5 6#5 0x800#12) := by decide
theorem test_decode_ori : decodeTableWord 32 0b011111111111_00110_110_00101_0010011 = some (.ori 5#5 6#5 0x7FF#12) := by decide
theorem test_decode_xori : decodeTableWord 32 0b010101010101_00110_100_00101_0010011 = some (.xori 5#5 6#5 0x555#12) := by decide
theorem test_decode_slti : decodeTableWord 32 0b000000000001_00110_010_00101_0010011 = some (.slti 5#5 6#5 0x001#12) := by decide
theorem test_decode_sltiu : decodeTableWord 32 0b111111111110_00110_011_00101_0010011 = some (.sltiu 5#5 6#5 0xFFE#12) := by decide
theorem test_decode_srai : decodeTableWord 32 0b0100000_11111_00110_101_00101_0010011 = some (.srai 5#5 6#5 31#5) := by decide
theorem test_decode_srli : decodeTableWord 32 0b0000000_10000_00110_101_00101_0010011 = some (.srli 5#5 6#5 16#5) := by decide
theorem test_decode_slli : decodeTableWord 32 0b0000000_00001_00110_001_00101_0010011 = some (.slli 5#5 6#5 1#5) := by decide
theorem test_decode_lui : decodeTableWord 32 0b10000000000000000001_00101_0110111 = some (.lui 5#5 0x80001#20) := by decide
theorem test_decode_auipc : decodeTableWord 32 0b00010010001101000101_00101_0010111 = some (.auipc 5#5 0x12345#20) := by decide
theorem test_decode_lw : decodeTableWord 32 0b111111111100_00110_010_00101_0000011 = some (.lw 5#5 6#5 0xFFC#12) := by decide
theorem test_decode_sw : decodeTableWord 32 0b1111111_00111_00110_010_11100_0100011 = some (.sw 7#5 6#5 0xFFC#12) := by decide
theorem test_decode_jal : decodeTableWord 32 0b1_1111111110_1_11111111_00001_1101111 = some (.jal 1#5 0x1FFFFC#21) := by decide
theorem test_decode_jal_bit_11 : decodeTableWord 32 0b0_0000000000_1_00000000_00001_1101111 = some (.jal 1#5 0x000800#21) := by decide
theorem test_decode_jal_bit_12 : decodeTableWord 32 0b0_0000000000_0_00000001_00001_1101111 = some (.jal 1#5 0x001000#21) := by decide
theorem test_decode_jalr : decodeTableWord 32 0b000000001000_00110_000_00001_1100111 = some (.jalr 1#5 6#5 0x008#12) := by decide
theorem test_decode_beq : decodeTableWord 32 0b0_000000_00111_00110_000_1000_0_1100011 = some (.beq 6#5 7#5 0x0010#13) := by decide
theorem test_decode_bne : decodeTableWord 32 0b1_111111_00111_00110_001_1100_1_1100011 = some (.bne 6#5 7#5 0x1FF8#13) := by decide
theorem test_decode_blt : decodeTableWord 32 0b0_000000_00111_00110_100_0000_1_1100011 = some (.blt 6#5 7#5 0x0800#13) := by decide
theorem test_decode_bge : decodeTableWord 32 0b1_000000_00111_00110_101_0000_0_1100011 = some (.bge 6#5 7#5 0x1000#13) := by decide
theorem test_decode_bltu : decodeTableWord 32 0b0_000000_00111_00110_110_0001_0_1100011 = some (.bltu 6#5 7#5 0x0002#13) := by decide
theorem test_decode_bgeu : decodeTableWord 32 0b0_111111_00111_00110_111_1111_1_1100011 = some (.bgeu 6#5 7#5 0x0FFE#13) := by decide

/-! ## Unlisted words are refused by name (V197 to V223; R80) -/

theorem test_decode_refuses_all_zero_and_all_ones : ∀ w ∈ [0x00000000#32, 0xFFFFFFFF#32],
    decodeWord w = .error (.illegal w) := by
  simp only [List.forall_mem_cons, List.not_mem_nil, false_imp_iff, implies_true, and_true]
  exact ⟨rfl, rfl⟩
theorem test_decode_refuses_system : ∀ w ∈ [0x00000073#32, 0x00100073#32, 0x30200073#32, 0x10500073#32, 0xC0002573#32],
    decodeWord w = .error (.illegal w) := by
  simp only [List.forall_mem_cons, List.not_mem_nil, false_imp_iff, implies_true, and_true]
  exact ⟨rfl, rfl, rfl, rfl, rfl⟩
theorem test_decode_refuses_fences : ∀ w ∈ [0x0000000F#32, 0x0000100F#32],
    decodeWord w = .error (.illegal w) := by
  simp only [List.forall_mem_cons, List.not_mem_nil, false_imp_iff, implies_true, and_true]
  exact ⟨rfl, rfl⟩
theorem test_decode_refuses_other_funct7 : ∀ w ∈ [0x02730333#32, 0x40731333#32, 0x20730333#32, 0x02031293#32, 0x40031293#32, 0x80035293#32],
    decodeWord w = .error (.illegal w) := by
  simp only [List.forall_mem_cons, List.not_mem_nil, false_imp_iff, implies_true, and_true]
  exact ⟨rfl, rfl, rfl, rfl, rfl, rfl⟩
theorem test_decode_refuses_other_funct3 : ∀ w ∈ [0x00030283#32, 0x00031283#32, 0x00034283#32, 0x00730023#32, 0x00731023#32, 0x00031067#32,
    0x00732063#32, 0x00733063#32],
    decodeWord w = .error (.illegal w) := by
  simp only [List.forall_mem_cons, List.not_mem_nil, false_imp_iff, implies_true, and_true]
  exact ⟨rfl, rfl, rfl, rfl, rfl, rfl, rfl, rfl⟩
theorem test_decode_refuses_other_opcodes : ∀ w ∈ [0x00000001#32, 0x00008002#32, 0x0000003B#32, 0x0000001B#32],
    decodeWord w = .error (.illegal w) := by
  simp only [List.forall_mem_cons, List.not_mem_nil, false_imp_iff, implies_true, and_true]
  exact ⟨rfl, rfl, rfl, rfl⟩
theorem test_decode_refuses_three_bytes : decode [0x13#8, 0x00#8, 0x00#8] = .error .truncated := rfl

/-! ## One step -/

/-- A state at `pc` with `size` bytes of memory from address 0, the named registers set, the named words loaded. -/
def at' (size : Nat) (pc : Word) (regs : List (Reg × Word)) (words : List (Word × Word)) : State :=
  let s0 : State := { State.reset with pc := pc, params := { State.reset.params with memSize := size, haltPc := 0x00000010#32 } }
  regs.foldl (fun s p => s.setX p.1 p.2) (words.foldl (fun s p => s.loadWord p.1 p.2) s0)

/-- The start of most vectors: PC 0x1000, 64 KiB of memory. -/
def start (regs : List (Reg × Word)) : State := at' 0x10000 0x00001000#32 regs []

/-- The memory vectors' start (section 2.3). -/
def withData (regs : List (Reg × Word)) : State :=
  at' 0x10000 0x00001000#32 ([(5#5, 0xAAAAAAAA#32), (7#5, 0x12345678#32)] ++ regs)
    [(0x00002000#32, 0x11111111#32), (0x00002004#32, 0x22222222#32), (0x0000FFFC#32, 0x44444444#32)]

/-- The next state of the step that runs the word `w`, if it has one. -/
def after (w : Nat) (s : State) : Option State :=
  match step (s.withFetchWord 32 w) with
  | .next t => some t
  | _ => none

theorem test_add_wraps : (after 0x007302B3 (start [(6#5, 0x7FFFFFFF#32), (7#5, 0x00000001#32)])).map (fun t => (t.x 5#5, t.pc, t.faulted)) =
    some (0x80000000#32, 0x00001004#32, none) := by decide -- V2
theorem test_sub_borrow_wraps : (after 0x407302B3 (start [(6#5, 0x00000003#32), (7#5, 0x00000005#32)])).map (fun t => (t.x 5#5, t.pc, t.faulted)) =
    some (0xFFFFFFFE#32, 0x00001004#32, none) := by decide -- V7
theorem test_and : (after 0x007372B3 (start [(6#5, 0xF0F0F0F0#32), (7#5, 0xFF00FF00#32)])).map (fun t => (t.x 5#5, t.pc, t.faulted)) =
    some (0xF000F000#32, 0x00001004#32, none) := by decide -- V12
theorem test_or : (after 0x007362B3 (start [(6#5, 0x80000000#32), (7#5, 0x00000001#32)])).map (fun t => (t.x 5#5, t.pc, t.faulted)) =
    some (0x80000001#32, 0x00001004#32, none) := by decide -- V17
theorem test_xor : (after 0x007342B3 (start [(6#5, 0xF0F0F0F0#32), (7#5, 0xFF00FF00#32)])).map (fun t => (t.x 5#5, t.pc, t.faulted)) =
    some (0x0FF00FF0#32, 0x00001004#32, none) := by decide -- V18
theorem test_slt_signed : (after 0x007322B3 (start [(6#5, 0x80000000#32), (7#5, 0x7FFFFFFF#32)])).map (fun t => (t.x 5#5, t.pc, t.faulted)) =
    some (0x00000001#32, 0x00001004#32, none) := by decide -- V23
theorem test_sltu_unsigned : (after 0x007332B3 (start [(6#5, 0x80000000#32), (7#5, 0x7FFFFFFF#32)])).map (fun t => (t.x 5#5, t.pc, t.faulted)) =
    some (0x00000000#32, 0x00001004#32, none) := by decide -- V29
theorem test_sra_low_five_bits : (after 0x407352B3 (start [(6#5, 0xFFFFFFF0#32), (7#5, 0x00000024#32)])).map (fun t => (t.x 5#5, t.pc, t.faulted)) =
    some (0xFFFFFFFF#32, 0x00001004#32, none) := by decide -- V36
theorem test_srl_low_five_bits : (after 0x007352B3 (start [(6#5, 0xFFFFFFF0#32), (7#5, 0x00000024#32)])).map (fun t => (t.x 5#5, t.pc, t.faulted)) =
    some (0x0FFFFFFF#32, 0x00001004#32, none) := by decide -- V42
theorem test_sll_low_five_bits : (after 0x007312B3 (start [(6#5, 0x00000003#32), (7#5, 0xFFFFFFE1#32)])).map (fun t => (t.x 5#5, t.pc, t.faulted)) =
    some (0x00000006#32, 0x00001004#32, none) := by decide -- V49
theorem test_addi_least_immediate : (after 0x80030293 (start [(6#5, 0x00000000#32)])).map (fun t => (t.x 5#5, t.pc, t.faulted)) =
    some (0xFFFFF800#32, 0x00001004#32, none) := by decide -- V62
theorem test_andi_sign_extends : (after 0xF0037293 (start [(6#5, 0xDEADBEEF#32)])).map (fun t => (t.x 5#5, t.pc, t.faulted)) =
    some (0xDEADBE00#32, 0x00001004#32, none) := by decide -- V68
theorem test_ori_sign_extends : (after 0x80036293 (start [(6#5, 0x00000000#32)])).map (fun t => (t.x 5#5, t.pc, t.faulted)) =
    some (0xFFFFF800#32, 0x00001004#32, none) := by decide -- V71
theorem test_xori_inverts : (after 0xFFF34293 (start [(6#5, 0xDEADBEEF#32)])).map (fun t => (t.x 5#5, t.pc, t.faulted)) =
    some (0x21524110#32, 0x00001004#32, none) := by decide -- V73
theorem test_slti_signed : (after 0x80032293 (start [(6#5, 0x80000000#32)])).map (fun t => (t.x 5#5, t.pc, t.faulted)) =
    some (0x00000001#32, 0x00001004#32, none) := by decide -- V78
theorem test_sltiu_sign_extends : (after 0x80033293 (start [(6#5, 0xFFFFF7FF#32)])).map (fun t => (t.x 5#5, t.pc, t.faulted)) =
    some (0x00000001#32, 0x00001004#32, none) := by decide -- V86
theorem test_srai_rounds_down : (after 0x40135293 (start [(6#5, 0xFFFFFFF9#32)])).map (fun t => (t.x 5#5, t.pc, t.faulted)) =
    some (0xFFFFFFFC#32, 0x00001004#32, none) := by decide -- V93
theorem test_srli_zero_fills : (after 0x01F35293 (start [(6#5, 0x80000000#32)])).map (fun t => (t.x 5#5, t.pc, t.faulted)) =
    some (0x00000001#32, 0x00001004#32, none) := by decide -- V95
theorem test_slli_loses_high_bits : (after 0x00431293 (start [(6#5, 0xDEADBEEF#32)])).map (fun t => (t.x 5#5, t.pc, t.faulted)) =
    some (0xEADBEEF0#32, 0x00001004#32, none) := by decide -- V100
theorem test_sll_one_register : (after 0x00631333 (start [(6#5, 0x00000003#32)])).map (fun t => t.x 6#5) = some 0x00000018#32 := by
  decide -- V58
theorem test_add_to_x0 : (after 0x00730033 (start [(6#5, 0x00000001#32), (7#5, 0x00000002#32)])).map (fun t => (t.x 0#5, t.pc)) =
    some (0x00000000#32, 0x00001004#32) := by decide -- V51
theorem test_lui : (after 0x800002B7 (start [])).map (fun t => t.x 5#5) = some 0x80000000#32 := by decide -- V105
theorem test_auipc_keeps_low_bits : (after 0x12345297 (at' 0x10000 0x00001234#32 [] [])).map (fun t => t.x 5#5) =
    some 0x12346234#32 := by decide -- V109
theorem test_auipc_wraps : (after 0xFFFFF297 (start [])).map (fun t => t.x 5#5) = some 0x00000000#32 := by decide -- V108
theorem test_lw_last_word : (after 0xFFC32283 (withData [(6#5, 0x00010000#32)])).map (fun t => (t.x 5#5, t.faulted)) =
    some (0x44444444#32, none) := by decide -- V125
theorem test_lw_rd_is_rs1 : (after 0x00032303 (withData [(6#5, 0x00002004#32)])).map (fun t => t.x 6#5) =
    some 0x22222222#32 := by decide -- V127
theorem test_lw_x0_still_faults : (after 0x00032003 (withData [(6#5, 0x00010000#32)])).map (fun t => t.faulted) =
    some (some (.loadAccessFault 0x00010000#32)) := by decide -- V129
theorem test_lw_misaligned_before_missing : (after 0x00132283 (withData [(6#5, 0x00010000#32)])).map (fun t => (t.x 5#5, t.faulted)) =
    some (0xAAAAAAAA#32, some (.loadAddressMisaligned 0x00010001#32)) := by decide -- V134
theorem test_sw_greatest_displacement : (after 0x7E732FA3 (withData [(6#5, 0x00001801#32)])).map (fun t =>
    (t.wordAt 0x00002000#32, t.wordAt 0x00002004#32, t.stored)) = some (0x12345678#32, 0x22222222#32, [0x2000]) := by decide -- V137
theorem test_sw_little_endian : (after 0x00732023 (withData [(6#5, 0x00002000#32)])).map (fun t =>
    (t.byteAt 0x2000, t.byteAt 0x2003)) = some (0x78#8, 0x12#8) := by decide -- V135 with R41
theorem test_sw_misaligned : (after 0x00732123 (withData [(6#5, 0x00002000#32)])).map (fun t => (t.wordAt 0x00002000#32, t.faulted)) =
    some (0x11111111#32, some (.storeAddressMisaligned 0x00002002#32)) := by decide -- V142
theorem test_sw_missing : (after 0x00732023 (withData [(6#5, 0x00010000#32)])).map (fun t => (t.pc, t.faulted)) =
    some (0x00001000#32, some (.storeAccessFault 0x00010000#32)) := by decide -- V143
theorem test_jal_backward : (after 0xFFDFF0EF (start [])).map (fun t => (t.x 1#5, t.pc)) =
    some (0x00001004#32, 0x00000FFC#32) := by decide -- V147
theorem test_jal_misaligned : (after 0x002000EF (start [(1#5, 7#32)])).map (fun t => (t.x 1#5, t.pc, t.faulted)) =
    some (7#32, 0x00001000#32, some (.instructionAddressMisaligned 0x00001002#32)) := by decide -- V154
theorem test_jalr_rd_is_rs1 : (after 0x00830367 (start [(6#5, 0x00002000#32)])).map (fun t => (t.x 6#5, t.pc)) =
    some (0x00001004#32, 0x00002008#32) := by decide -- V166
theorem test_jalr_clears_bit_0_only : (after 0x002300E7 (start [(6#5, 0x00002001#32)])).map (fun t => t.faulted) =
    some (some (.instructionAddressMisaligned 0x00002002#32)) := by decide -- V163
theorem test_beq_falls_through : (after 0x00730863 (start [(6#5, 0xFFFFFFFF#32), (7#5, 0x00000001#32)])).map (fun t => t.pc) =
    some 0x00001004#32 := by decide -- V173
theorem test_beq_taken : (after 0x00730863 (start [(6#5, 5#32), (7#5, 5#32)])).map (fun t => t.pc) =
    some 0x00001010#32 := by decide -- V171
theorem test_bne_taken : (after 0x00731863 (start [(6#5, 0xFFFFFFFF#32), (7#5, 0x00000001#32)])).map (fun t => t.pc) =
    some 0x00001010#32 := by decide -- V173
theorem test_bne_falls_through : (after 0x00731863 (start [(6#5, 5#32), (7#5, 5#32)])).map (fun t => t.pc) =
    some 0x00001004#32 := by decide -- V171
theorem test_blt_taken : (after 0x00734863 (start [(6#5, 0xFFFFFFFF#32), (7#5, 0x00000001#32)])).map (fun t => t.pc) =
    some 0x00001010#32 := by decide -- V173
theorem test_blt_falls_through : (after 0x00734863 (start [(6#5, 5#32), (7#5, 5#32)])).map (fun t => t.pc) =
    some 0x00001004#32 := by decide -- V171
theorem test_bge_falls_through : (after 0x00735863 (start [(6#5, 0xFFFFFFFF#32), (7#5, 0x00000001#32)])).map (fun t => t.pc) =
    some 0x00001004#32 := by decide -- V173
theorem test_bge_taken : (after 0x00735863 (start [(6#5, 5#32), (7#5, 5#32)])).map (fun t => t.pc) =
    some 0x00001010#32 := by decide -- V171
theorem test_bltu_taken : (after 0x00736863 (start [(6#5, 0x00000001#32), (7#5, 0xFFFFFFFF#32)])).map (fun t => t.pc) =
    some 0x00001010#32 := by decide -- V174
theorem test_bltu_falls_through : (after 0x00736863 (start [(6#5, 5#32), (7#5, 5#32)])).map (fun t => t.pc) =
    some 0x00001004#32 := by decide -- V171
theorem test_bgeu_falls_through : (after 0x00737863 (start [(6#5, 0x00000001#32), (7#5, 0xFFFFFFFF#32)])).map (fun t => t.pc) =
    some 0x00001004#32 := by decide -- V174
theorem test_bgeu_taken : (after 0x00737863 (start [(6#5, 5#32), (7#5, 5#32)])).map (fun t => t.pc) =
    some 0x00001010#32 := by decide -- V171
theorem test_branch_not_taken_ignores_offset : (after 0x00631163 (start [])).map (fun t => (t.pc, t.faulted)) =
    some (0x00001004#32, none) := by decide -- V190
theorem test_illegal_word : (after 0x00000073 (start [])).map (fun t => (t.pc, t.faulted)) =
    some (0x00001000#32, some (.illegalInstruction 0x00000073#32)) := by decide -- V199
theorem test_reset_runs_its_first_instruction : (after 0x00500293 State.reset).map (fun t => (t.x 5#5, t.pc)) =
    some (0x00000005#32, 0x00001004#32) := by decide -- P1

/-! ## Witnesses: states and operands that meet the hypotheses of the statements -/

/-- Memory from 0x1000 to 0x1FFF only. -/
def high (regs : List (Reg × Word)) : State :=
  let s := start regs
  { s with params := { s.params with memBase := 0x1000, memSize := 0x1000 } }

theorem witness_ImmediateFormsMatchRegisterForms :
    (start [(7#5, 0xFFFFFFFF#32)]).x 7#5 = (0xFFF#12).signExtend 32 ∧ ((start [(7#5, 0xFFFFFFFF#32)]).x 7#5).toNat % 32 = (31#5).toNat := by
  decide

theorem witness_LwLoadsTheAddressedWord_last_word :
    0x0000FFFC#32 = (start [(6#5, 0x00010000#32)]).x 6#5 + (0xFFC#12).signExtend 32 ∧ IsWordAddress 0x0000FFFC#32 ∧
    (start [(6#5, 0x00010000#32)]).Exists 0x0000FFFC#32 := by decide

theorem witness_LwLoadsTheAddressedWord_first_word :
    0x00001000#32 = (high [(6#5, 0x00001000#32)]).x 6#5 + (0x000#12).signExtend 32 ∧ IsWordAddress 0x00001000#32 ∧
    (high [(6#5, 0x00001000#32)]).Exists 0x00001000#32 := by decide

theorem witness_LwFaultsOnABadAddress_misaligned :
    0x0000FFFD#32 = (start [(6#5, 0x0000FFFC#32)]).x 6#5 + (0x001#12).signExtend 32 ∧ ¬ IsWordAddress 0x0000FFFD#32 := by decide

theorem witness_LwFaultsOnABadAddress_past_the_end :
    0x00010000#32 = (start [(6#5, 0x0000FFFC#32)]).x 6#5 + (0x004#12).signExtend 32 ∧ IsWordAddress 0x00010000#32 ∧
    ¬ (start [(6#5, 0x0000FFFC#32)]).Exists 0x00010000#32 := by decide

theorem witness_LwFaultsOnABadAddress_before_the_start :
    0x00000FFC#32 = (high [(6#5, 0x00001000#32)]).x 6#5 + (0xFFC#12).signExtend 32 ∧ IsWordAddress 0x00000FFC#32 ∧
    ¬ (high [(6#5, 0x00001000#32)]).Exists 0x00000FFC#32 := by decide

theorem witness_SwStoresTheWord_last_word :
    0x0000FFFC#32 = (start [(6#5, 0x00010000#32)]).x 6#5 + (0xFFC#12).signExtend 32 ∧ IsWordAddress 0x0000FFFC#32 ∧
    (start [(6#5, 0x00010000#32)]).Exists 0x0000FFFC#32 := by decide

theorem witness_SwFaultsOnABadAddress_misaligned :
    0x00000002#32 = (start [(6#5, 0xFFFFFFFF#32)]).x 6#5 + (0x003#12).signExtend 32 ∧ ¬ IsWordAddress 0x00000002#32 := by decide

theorem witness_SwFaultsOnABadAddress_past_the_end :
    0xFFFFFFFC#32 = (start []).x 0#5 + (0xFFC#12).signExtend 32 ∧ IsWordAddress 0xFFFFFFFC#32 ∧
    ¬ (start []).Exists 0xFFFFFFFC#32 := by decide

theorem witness_JalLinksAndJumps_wraps :
    (0x000008#21).getLsbD 0 = false ∧ 0x00000004#32 = (at' 0x10000 0xFFFFFFFC#32 [] []).pc + (0x000008#21).signExtend 32 ∧
    IsWordAddress 0x00000004#32 := by decide

theorem witness_JalLinksAndJumps_least_offset :
    (0x100000#21).getLsbD 0 = false ∧ 0x00000000#32 = (at' 0x10000 0x00100000#32 [] []).pc + (0x100000#21).signExtend 32 ∧
    IsWordAddress 0x00000000#32 := by decide

theorem witness_JalrLinksAndJumps :
    0x00002000#32 = ((start [(6#5, 0x00002001#32)]).x 6#5 + (0x000#12).signExtend 32) &&& 0xFFFFFFFE#32 ∧
    IsWordAddress 0x00002000#32 := by decide

/-- The offset 16 is even and leads from 0x1000 to a multiple of 4. -/
theorem witness_branch_offset : (0x0010#13).getLsbD 0 = false ∧ IsWordAddress ((start []).pc + (0x0010#13).signExtend 32) := by
  decide

theorem witness_BeqBneBranchOnEquality :
    (start [(6#5, 5#32), (7#5, 5#32)]).x 6#5 = (start [(6#5, 5#32), (7#5, 5#32)]).x 7#5 ∧
    (start [(6#5, 5#32), (7#5, 6#32)]).x 6#5 ≠ (start [(6#5, 5#32), (7#5, 6#32)]).x 7#5 := by decide

theorem witness_BltBgeBranchOnSignedOrder :
    ((start [(6#5, 0x80000000#32), (7#5, 0x7FFFFFFF#32)]).x 6#5).toInt < ((start [(6#5, 0x80000000#32), (7#5, 0x7FFFFFFF#32)]).x 7#5).toInt ∧
    ((start [(6#5, 5#32), (7#5, 5#32)]).x 7#5).toInt ≤ ((start [(6#5, 5#32), (7#5, 5#32)]).x 6#5).toInt := by decide

theorem witness_BltuBgeuBranchOnUnsignedOrder :
    ((start [(6#5, 0#32), (7#5, 0xFFFFFFFF#32)]).x 6#5).toNat < ((start [(6#5, 0#32), (7#5, 0xFFFFFFFF#32)]).x 7#5).toNat ∧
    ((start [(6#5, 5#32), (7#5, 5#32)]).x 7#5).toNat ≤ ((start [(6#5, 5#32), (7#5, 5#32)]).x 6#5).toNat := by decide

theorem witness_TakenTransfersToMisalignedTargetsFault_jumps :
    (Instr.jal 1#5 0x000002#21).takenTarget (start []) = some 0x00001002#32 ∧
    (Instr.jalr 1#5 0#5 0x003#12).takenTarget (start []) = some 0x00000002#32 ∧
    ¬ IsWordAddress 0x00001002#32 ∧ ¬ IsWordAddress 0x00000002#32 := by decide

theorem witness_TakenTransfersToMisalignedTargetsFault_branches :
    ∀ i ∈ [Instr.beq 6#5 6#5 0x0002#13, .bne 6#5 7#5 0x0002#13, .blt 6#5 7#5 0x0002#13, .bge 7#5 6#5 0x0002#13,
      .bltu 6#5 7#5 0x0002#13, .bgeu 7#5 6#5 0x0002#13],
    i.takenTarget (start [(6#5, 5#32), (7#5, 6#32)]) = some 0x00001002#32 ∧ ¬ IsWordAddress 0x00001002#32 := by decide

theorem witness_RegisterReadsSeeTheLastWrite : (31#5 : Reg) ≠ 0#5 ∧ (1#5 : Reg) ≠ 31#5 := by decide

theorem witness_TheDestinationDecidesNothingElse :
    (∃ t, exec (.lw 5#5 6#5 0x000#12) (withData [(6#5, 0x00002000#32)]) = .next t) ∧ (0#5 : Reg) = 0#5 := ⟨⟨_, rfl⟩, rfl⟩

theorem witness_OtherInstructionsGoOnAtTheNextWord :
    ∀ i ∈ [Instr.add 5#5 6#5 7#5, .sw 7#5 6#5 0x001#12, .bne 6#5 6#5 0x0002#13],
    (start []).faulted = none ∧ i.takenTarget (start []) = none := by decide

theorem witness_OnlyTheNamedDestinationsChange :
    ∃ t, exec (.sw 7#5 6#5 0x000#12) (withData [(6#5, 0x00002000#32)]) = .next t := ⟨_, rfl⟩

theorem witness_OnlyTheNamedSourcesAreRead :
    let s := withData [(6#5, 0x00002000#32)]
    let u := withData [(6#5, 0x00002000#32), (9#5, 0x00000001#32)]
    let i := Instr.lw 5#5 6#5 0x004#12
    s.faulted = none ∧ u.faulted = none ∧ u.pc = s.pc ∧ u.params = s.params ∧ (∀ r ∈ i.sources, u.x r = s.x r) ∧
    (∀ ea, i.loadAddress s = some ea → ∀ a, ea.toNat ≤ a → a < ea.toNat + 4 → u.byteAt a = s.byteAt a) ∧
    ∃ t, exec i s = .next t :=
  ⟨by decide, by decide, by decide, by decide, by decide, fun _ _ _ _ _ => rfl, _, rfl⟩

/-- The store clause at the last word: two states with other bytes there, elsewhere and in an unnamed register. -/
theorem witness_OnlyTheNamedSourcesAreRead_store :
    let s := withData [(6#5, 0x00010000#32)]
    let u := (withData [(6#5, 0x00010000#32), (9#5, 0x00000001#32)]).loadWord 0x0000FFFC#32 0x00000000#32
    let i := Instr.sw 7#5 6#5 0xFFC#12
    s.faulted = none ∧ u.faulted = none ∧ u.pc = s.pc ∧ u.params = s.params ∧ (∀ r ∈ i.sources, u.x r = s.x r) ∧
    (∀ ea, i.loadAddress s = some ea → ∀ a, ea.toNat ≤ a → a < ea.toNat + 4 → u.byteAt a = s.byteAt a) ∧
    i.storeAddress s = some 0x0000FFFC#32 ∧ ∃ t, exec i s = .next t ∧ t.faulted = none :=
  ⟨by decide, by decide, by decide, by decide, by decide, nofun, by decide, _, rfl, by decide⟩

/-- An image with the first and the last byte of a memory that does not start at 0. -/
def edgeLaunch : Launch :=
  { params := { memBase := 0x1000, memSize := 0x1000, resetPc := 0x00001FFC#32, haltPc := 0x00000000#32, ifetchCoherent := true }
    regInit := Vector.replicate 31 0xFFFFFFFF#32
    image := [(0x1000, 0x13#8), (0x1FFF, 0x00#8)] }

theorem witness_EveryLaunchStateIsSound : edgeLaunch.wf = true := by decide

theorem witness_LaunchLeavesTheResetTable :
    30 < 31 ∧ Memory.find edgeLaunch.image 0x1000 = some 0x13#8 ∧ Memory.find edgeLaunch.image 0x1FFF = some 0x00#8 := by decide

/-- A state in which a word has been stored, about to store another one. -/
def stored : State :=
  { withData [(6#5, 0x0000FFFC#32)] with stored := [0x2000] }.withFetchWord 32 0x00732023

theorem witness_EveryStepKeepsTheInvariant : stored.Inv ∧ ∃ t, step stored = .next t :=
  ⟨⟨by decide, by decide, by decide, by decide, by decide, by decide, by decide⟩, _, rfl⟩

theorem witness_PcStaysAMultipleOfFour :
    IsWordAddress ((start []).withFetchWord 32 0xFFDFF0EF).pc ∧ ∃ t, step ((start []).withFetchWord 32 0xFFDFF0EF) = .next t :=
  ⟨by decide, _, rfl⟩

theorem witness_FaultsArePreciseAndTerminal :
    let s := (start []).withFetchWord 32 0x002000EF
    s.faulted = none ∧ ∃ t, step s = .next t ∧ t.faulted = some (.instructionAddressMisaligned 0x00001002#32) :=
  ⟨rfl, _, rfl, rfl⟩

/-- No row of the opcode map matches all ones or the ECALL word. -/
theorem test_no_row_matches : ∀ w ∈ [0xFFFFFFFF#32, 0x00000073#32], ∀ row ∈ opcodeMap, w &&& row.1 ≠ row.2 := by
  simp [opcodeMap]

/-- Running states in which the faults of a fetch and of decoding are raised. -/
theorem witness_FaultsAreRaisedExactlyWhenTheTableSays :
    (at' 0x10000 0x00010000#32 [] []).Running ∧ (at' 0x10000 0x00010000#32 [] []).Raises (.instructionAccessFault 0x00010000#32) ∧
    { start [] with stored := [0x1000] }.Running ∧ { start [] with stored := [0x1000] }.Raises (.fetchAfterStore 0x00001000#32) ∧
    ((start []).withFetchWord 32 0x00000073).Running ∧
    ((start []).withFetchWord 32 0x00000073).Raises (.illegalInstruction 0x00000073#32) :=
  ⟨by decide, ⟨rfl, by decide⟩, by decide, ⟨rfl, by decide, rfl, by decide⟩, by decide, by decide, by decide,
    test_no_row_matches _ (by decide)⟩

/-- Running states in which the faults of an instruction are raised. -/
theorem witness_FaultsAreRaisedExactlyWhenTheTableSays_by_an_instruction :
    ((start []).withFetchWord 32 0x002000EF).Raises (.instructionAddressMisaligned 0x00001002#32) ∧
    ((start []).withFetchWord 32 0x00102003).Raises (.loadAddressMisaligned 0x00000001#32) ∧
    ((start []).withFetchWord 32 0xFFC02283).Raises (.loadAccessFault 0xFFFFFFFC#32) ∧
    ((start []).withFetchWord 32 0x000020A3).Raises (.storeAddressMisaligned 0x00000001#32) ∧
    ((start []).withFetchWord 32 0xFE002E23).Raises (.storeAccessFault 0xFFFFFFFC#32) :=
  ⟨⟨.jal 1#5 0x000002#21, ⟨by decide, rfl⟩, by decide, by decide⟩, ⟨.lw 0#5 0#5 0x001#12, ⟨by decide, rfl⟩, by decide, by decide⟩,
    ⟨.lw 5#5 0#5 0xFFC#12, ⟨by decide, rfl⟩, by decide, by decide⟩, ⟨.sw 0#5 0#5 0x001#12, ⟨by decide, rfl⟩, by decide, by decide⟩,
    ⟨.sw 0#5 0#5 0xFFC#12, ⟨by decide, rfl⟩, by decide, by decide⟩⟩

theorem witness_ARunningMachineAlwaysSteps :
    (start []).Running ∧ (at' 0x10000 0x00000010#32 [] []).Ended ∧
    { start [] with faulted := some (.illegalInstruction 0x00000000#32) }.faulted = some (.illegalInstruction 0x00000000#32) := by decide

theorem witness_StepRunsTheDecodedInstruction :
    ((start []).withFetchWord 32 0x007302B3).Running ∧ ((start []).withFetchWord 32 0x007302B3).AboutToRun (.add 5#5 6#5 7#5) :=
  ⟨by decide, by decide, rfl⟩

theorem witness_UnlistedWordsAreIllegal :
    let s := (start []).withFetchWord 32 0xFFFFFFFF
    s.Running ∧ s.Fetchable ∧ ∀ row ∈ opcodeMap, s.wordAt s.pc &&& row.1 ≠ row.2 :=
  ⟨by decide, by decide, test_no_row_matches _ (by decide)⟩

theorem witness_EncodedInstructionsDecodeBack :
    (Instr.jal 31#5 0x1FFFFE#21).wellFormed = true ∧ (Instr.beq 31#5 0#5 0x1000#13).wellFormed = true := by decide

theorem witness_DecodedWordsEncodeBack : decodeWord 0xFE731CE3#32 = .ok (.bne 6#5 7#5 0x1FF8#13) := rfl

/-- After a store to the word before last: a load from that word, and a load from the last word. -/
theorem witness_ALoadReturnsTheLatestStore :
    let s := withData [(6#5, 0x0000FFF8#32)]
    s.faulted = none ∧ 0x0000FFF8#32 = s.x 6#5 + (0x000#12).signExtend 32 ∧ ∃ t, exec (.sw 7#5 6#5 0x000#12) s = .next t ∧
      t.faulted = none ∧ 0x0000FFF8#32 = t.x 6#5 + (0x000#12).signExtend 32 ∧ 0x0000FFFC#32 = t.x 6#5 + (0x004#12).signExtend 32 ∧
      IsWordAddress 0x0000FFF8#32 ∧ t.Exists 0x0000FFF8#32 ∧ IsWordAddress 0x0000FFFC#32 ∧ t.Exists 0x0000FFFC#32 :=
  ⟨by decide, by decide, _, rfl, by decide, by decide, by decide, by decide, by decide, by decide, by decide⟩

/-- The last word of memory, stored by SW, with and without `IFETCH_COHERENT`. -/
theorem witness_FetchOfAStoredWordDependsOnCoherence :
    let s := { (at' 0x10000 0x0000FFFC#32 [] []).withFetchWord 32 0x00200293 with stored := [0xFFFC] }
    let u := { s with params := { s.params with ifetchCoherent := true } }
    (s.Running ∧ s.Exists s.pc ∧ s.pc.toNat ∈ s.stored ∧ s.params.ifetchCoherent = false) ∧
    (u.Running ∧ u.Exists u.pc ∧ u.pc.toNat ∈ u.stored ∧ u.params.ifetchCoherent = true) ∧
    decodeWord (u.wordAt u.pc) = .ok (.addi 5#5 0#5 0x002#12) :=
  ⟨by decide, by decide, rfl⟩

theorem witness_TheStoredSetGrowsByStoresOnly : ∃ t, step stored = .next t ∧ 0xFFFC ∈ t.stored := ⟨_, rfl, by decide⟩

theorem witness_LuiThenAddiBuildsAnyConstant : (5#5 : Reg) ≠ 0#5 := by decide

/-- The words of V113 build the constant of V113. -/
theorem test_lui_addi_constant :
    ((0xDEADBEEF#32 - ((0xDEADBEEF#32).extractLsb' 0 12).signExtend 32).extractLsb' 12 20 = 0xDEADC#20) ∧
    (0xDEADBEEF#32).extractLsb' 0 12 = 0xEEF#12 := by decide

theorem witness_SltuAfterAddGivesTheCarry :
    (5#5 : Reg) ≠ 0#5 ∧ (5#5 : Reg) ≠ 6#5 ∧ (8#5 : Reg) ≠ 0#5 ∧
    ∃ t, exec (.add 5#5 6#5 7#5) (start [(6#5, 0xFFFFFFFF#32), (7#5, 0x00000001#32)]) = .next t :=
  ⟨by decide, by decide, by decide, _, rfl⟩

theorem witness_EqualMemoriesAreEqualData :
    Memory.wf [(0, 1#8), (0xFFFF, 2#8)] = true ∧ ∀ a, Memory.find [(0, 1#8), (0xFFFF, 2#8)] a = Memory.find [(0, 1#8), (0xFFFF, 2#8)] a :=
  ⟨by decide, fun _ => rfl⟩

theorem witness_AWordPlacedAtPcIsTheOneRun :
    let s := { at' 0x10000 0x0000FFFC#32 [] [] with stored := [0xFFFC] }
    s.Running ∧ s.Exists s.pc ∧ decodeTableWord 32 0x007302B3 = some (.add 5#5 6#5 7#5) ∧ decodeTableWord 32 0x00000073 = none := by decide

end Sys2Proof.Tests
end

section
namespace Sys2Proof.Proofs
open Sys2Proof Sys2Proof.Machine

/-- Settles O21, from the rules of a register read after a register write: register 0 is no storage (R10, R22), the written
register reads back the value, and every other register is untouched. -/
theorem registerReadsSeeTheLastWrite : Obligations.RegisterReadsSeeTheLastWrite := by
  intro s i j v
  exact ⟨s.x_zero, s.setX_zero v, s.x_setX_self v, s.x_setX_of_ne v⟩

end Sys2Proof.Proofs
end

section
namespace Sys2Proof.Proofs
open Sys2Proof Sys2Proof.Machine

/-! ## What an instruction that answers a next state has done (R23, R25) -/

/-- The effect an instruction may have beside PC (the write column of R23): none, its destination register written, or the word
at its effective address stored. -/
inductive MakesItsWrite (i : Instr) (s : State) : State → Prop
  | nothing : MakesItsWrite i s s
  | register {rd : Reg} (v : Word) (dest : i.dest = some rd) : MakesItsWrite i s (s.setX rd v)
  | memory {ea : Word} (v : Word) (address : i.storeAddress s = some ea) : MakesItsWrite i s (s.storeWord ea v)

/-- No write of an instruction sets the mark. -/
theorem MakesItsWrite.faulted {i : Instr} {s u : State} (h : MakesItsWrite i s u) : u.faulted = s.faulted := by
  cases h <;> simp

/-- A jump answers a next state, the fault included (R12, R150). -/
theorem jump_answers_next (s : State) (rd : Reg) (target : Word) : ∃ t, s.jump rd target = .next t := by
  unfold State.jump
  split <;> exact ⟨_, rfl⟩

/-- A branch answers a next state, the fault included (R12, R160). -/
theorem branch_answers_next (s : State) (taken : Bool) (target : Word) : ∃ t, s.branch taken target = .next t := by
  unfold State.branch
  repeat' split
  all_goals exact ⟨_, rfl⟩

/-- Every instruction answers a next state: none is refused, and a fault is a marked next state (R74, R170). -/
theorem exec_answers_next (i : Instr) (s : State) : ∃ t, exec i s = .next t := by
  obtain ⟨rd, v, -, -, -, -, h⟩ | ⟨_, _, _, -, -, ⟨v, -, h⟩ | ⟨f, -, h⟩⟩ | ⟨_, _, _, -, -, ⟨u, -, h⟩ | ⟨f, -, h⟩⟩ |
    ⟨rd, target, -, -, -, -, h⟩ | ⟨taken, target, -, -, -, -, h⟩ := exec_shape i s
  iterate 5 · exact ⟨_, h⟩
  · rw [h]; exact jump_answers_next s rd target
  · rw [h]; exact branch_answers_next s taken target

/-- The one state that a store which succeeds leaves (R47). -/
theorem eq_storeWord_of_memWrite {s u : State} {a v : Word} (h : s.memWrite a v = .ok u) : u = s.storeWord a v := by
  obtain ⟨-, -, hw⟩ | ⟨-, hw⟩ | ⟨-, -, hw⟩ := s.memWrite_cases a v <;> rw [hw] at h <;> cases h
  rfl

/-- All that `exec` can do: it takes a fault and changes nothing but the mark, or it makes its one write and sets PC to its taken
target, which is then a multiple of 4, or else to the next word (R12, R25, R46). -/
theorem exec_next_cases {i : Instr} {s t : State} (h : exec i s = .next t) :
    (∃ f, t = { s with faulted := some f }) ∨
    ∃ u, MakesItsWrite i s u ∧ t = u.setPc ((i.takenTarget s).getD s.nextPc) ∧
      ∀ a, i.takenTarget s = some a → IsWordAddress a := by
  obtain ⟨rd, v, hd, ht, -, -, he⟩ | ⟨rd, rs1, imm, rfl, -, ⟨v, -, he⟩ | ⟨f, -, he⟩⟩ |
    ⟨rs2, rs1, imm, rfl, ha, ⟨u, hu, he⟩ | ⟨f, -, he⟩⟩ | ⟨rd, target, hd, ht, -, -, he⟩ |
    ⟨taken, target, -, ht, -, -, he⟩ := exec_shape i s <;> rw [he] at h
  · cases h
    exact .inr ⟨_, .register v hd, by simp [ht], by simp [ht]⟩
  · cases h
    exact .inr ⟨_, .register v rfl, rfl, by simp [Instr.takenTarget]⟩
  · exact .inl ⟨f, (s.raise_eq_next_iff t f).1 h⟩
  · cases h
    exact .inr ⟨u, eq_storeWord_of_memWrite hu ▸ .memory _ ha, rfl, by simp [Instr.takenTarget]⟩
  · exact .inl ⟨f, (s.raise_eq_next_iff t f).1 h⟩
  · obtain ⟨hw, rfl⟩ | ⟨-, rfl⟩ := State.jump_cases h
    · exact .inr ⟨_, .register s.nextPc hd, by simp [ht], by simpa [ht] using hw⟩
    · exact .inl ⟨_, rfl⟩
  · obtain ⟨rfl, hw, rfl⟩ | ⟨-, -, rfl⟩ | ⟨rfl, rfl⟩ := State.branch_cases h
    · exact .inr ⟨s, .nothing, by simp [ht], by simpa [ht] using hw⟩
    · exact .inl ⟨_, rfl⟩
    · exact .inr ⟨s, .nothing, by simp [ht], by simp [ht]⟩

/-- Settles O23: a completed instruction without a taken target has PC at the next word, and its write sets no mark. -/
theorem otherInstructionsGoOnAtTheNextWord : Obligations.OtherInstructionsGoOnAtTheNextWord := by
  intro i s hrun hnone
  obtain ⟨t, h⟩ := exec_answers_next i s
  refine ⟨t, h, ?_⟩
  obtain hfault | ⟨u, hu, rfl, -⟩ := exec_next_cases h
  · exact .inr hfault
  · exact .inl ⟨hu.faulted.trans hrun, by rw [hnone]; rfl⟩

/-- Settles O24: a fault changes only the mark, and of the three writes each leaves alone what it does not name (R23, R28, R47). -/
theorem onlyTheNamedDestinationsChange : Obligations.OnlyTheNamedDestinationsChange := by
  intro i s t h
  obtain ⟨f, rfl⟩ | ⟨u, hu, rfl, -⟩ := exec_next_cases h
  · exact ⟨fun _ _ => rfl, fun _ _ => rfl, fun _ _ => .rfl, rfl⟩
  cases hu with
  | nothing => exact ⟨fun _ _ => rfl, fun _ _ => rfl, fun _ _ => .rfl, rfl⟩
  | @register rd v hd =>
    refine ⟨fun r hr => ?_, by simp, by simp, by simp⟩
    exact s.x_setX_of_ne v fun e => hr (e ▸ hd)
  | @memory ea v ha =>
    have stores := s.storesWord_storeWord_setPc ea v
    refine ⟨fun _ _ => rfl, fun a hout => stores.others a (hout ea ha), fun a hne => ?_, rfl⟩
    exact (stores.stored a).trans (or_iff_left (hne ea ha))

/-- An instruction keeps PC a multiple of 4: a target is checked before it is taken (R26, R46). -/
theorem exec_isWordAddress_pc {i : Instr} {s t : State} (hpc : IsWordAddress s.pc) (h : exec i s = .next t) :
    IsWordAddress t.pc := by
  obtain ⟨f, rfl⟩ | ⟨u, -, rfl, htarget⟩ := exec_next_cases h
  · exact hpc
  rw [State.setPc_pc]
  cases ht : i.takenTarget s with
  | none => exact State.nextPc_isWordAddress hpc
  | some a => exact htarget a ht

/-- Settles O29: a fault of the fetch or of decoding leaves PC alone, and every instruction keeps it aligned. -/
theorem pcStaysAMultipleOfFour : Obligations.PcStaysAMultipleOfFour := by
  intro s t hpc h
  obtain ⟨f, -, he⟩ | ⟨-, he⟩ | ⟨-, f, -, he⟩ | ⟨-, -, -, he⟩ | ⟨-, -, i, -, he⟩ := step_cases s <;> rw [he] at h
  · cases h
  · cases h
  · rw [(s.raise_eq_next_iff t _).1 h]; exact hpc
  · rw [(s.raise_eq_next_iff t _).1 h]; exact hpc
  · exact exec_isWordAddress_pc hpc h

/-! ## What an instruction reads (R23) -/

/-- Two states agree on everything an instruction may read (the read column of R23): PC, the mark, the configuration, its source
registers and, for a load, the four bytes at its effective address. -/
structure AgreeOnSources (i : Instr) (s u : State) : Prop where
  pc : u.pc = s.pc
  mark : u.faulted = s.faulted
  params : u.params = s.params
  regs : ∀ r ∈ i.sources, u.x r = s.x r
  loaded : ∀ ea, i.loadAddress s = some ea → ∀ a, ea.toNat ≤ a → a < ea.toNat + 4 → u.byteAt a = s.byteAt a

/-- Two states agree on everything an instruction run from `s` sets: PC, the mark and, with no fault, its destination register and
its stored word with that word's entry in the `stored` set. -/
structure LeaveTheSame (i : Instr) (s t w : State) : Prop where
  pc : w.pc = t.pc
  mark : w.faulted = t.faulted
  dest : t.faulted = none → ∀ r, i.dest = some r → w.x r = t.x r
  memory : t.faulted = none → ∀ ea, i.storeAddress s = some ea →
    (∀ a, ea.toNat ≤ a → a < ea.toNat + 4 → w.byteAt a = t.byteAt a) ∧ ea.toNat ∈ w.stored ∧ ea.toNat ∈ t.stored

/-- From both states the instruction answers a next state, and the two leave the same. -/
def GoOnAlike (i : Instr) (s u : State) : Prop :=
  ∃ t w, exec i s = .next t ∧ exec i u = .next w ∧ LeaveTheSame i s t w

section
variable {i : Instr} {s u : State}

/-- The same fault taken in both states. -/
theorem AgreeOnSources.goOnAlike_of_raise {f : Fault} (h : AgreeOnSources i s u) (hs : exec i s = s.raise f)
    (hu : exec i u = u.raise f) : GoOnAlike i s u :=
  ⟨_, _, hs, hu, h.pc, rfl, by simp, by simp⟩

/-- The same value written to the same register, and the same next PC, in both states. -/
theorem AgreeOnSources.goOnAlike_of_setX {rd : Reg} {v target : Word} (h : AgreeOnSources i s u) (hd : i.dest = some rd)
    (ha : i.storeAddress s = none) (hs : exec i s = .next ((s.setX rd v).setPc target))
    (hu : exec i u = .next ((u.setX rd v).setPc target)) : GoOnAlike i s u := by
  refine ⟨_, _, hs, hu, rfl, by simpa using h.mark, fun _ r hr => ?_, by simp [ha]⟩
  obtain rfl : rd = r := by simpa [hd] using hr
  simp [State.x_setX]

/-- Nothing but the same next PC in both states. -/
theorem AgreeOnSources.goOnAlike_of_setPc {target : Word} (h : AgreeOnSources i s u) (hd : i.dest = none)
    (ha : i.storeAddress s = none) (hs : exec i s = .next (s.setPc target)) (hu : exec i u = .next (u.setPc target)) :
    GoOnAlike i s u :=
  ⟨_, _, hs, hu, rfl, h.mark, by simp [hd], by simp [ha]⟩

theorem AgreeOnSources.nextPc_eq (h : AgreeOnSources i s u) : u.nextPc = s.nextPc := by
  rw [State.nextPc, State.nextPc, h.pc]

/-- The end of an instruction that writes a register and goes on. -/
theorem AgreeOnSources.goOnAlike_of_retire {rd : Reg} {v : Word} (h : AgreeOnSources i s u) (hd : i.dest = some rd)
    (ha : i.storeAddress s = none) (hs : exec i s = s.retire rd v) (hu : exec i u = u.retire rd v) : GoOnAlike i s u :=
  h.goOnAlike_of_setX hd ha hs (by rw [hu, State.retire, h.nextPc_eq])

/-- The end of a jump to the same target. -/
theorem AgreeOnSources.goOnAlike_of_jump {rd : Reg} {target : Word} (h : AgreeOnSources i s u) (hd : i.dest = some rd)
    (ha : i.storeAddress s = none) (hs : exec i s = s.jump rd target) (hu : exec i u = u.jump rd target) :
    GoOnAlike i s u := by
  rw [State.jump, h.nextPc_eq] at hu
  rw [State.jump] at hs
  split at hs
  next ht => rw [if_pos ht] at hu; exact h.goOnAlike_of_setX hd ha hs hu
  next ht => rw [if_neg ht] at hu; exact h.goOnAlike_of_raise hs hu

/-- The end of a branch decided alike with the same target. -/
theorem AgreeOnSources.goOnAlike_of_branch {taken : Bool} {target : Word} (h : AgreeOnSources i s u) (hd : i.dest = none)
    (ha : i.storeAddress s = none) (hs : exec i s = s.branch taken target) (hu : exec i u = u.branch taken target) :
    GoOnAlike i s u := by
  rw [State.branch, h.nextPc_eq] at hu
  rw [State.branch] at hs
  split at hs
  next ht =>
    rw [if_pos ht] at hu
    split at hs
    next hw => rw [if_pos hw] at hu; exact h.goOnAlike_of_setPc hd ha hs hu
    next hw => rw [if_neg hw] at hu; exact h.goOnAlike_of_raise hs hu
  next ht => rw [if_neg ht] at hu; exact h.goOnAlike_of_setPc hd ha hs hu

end

/-- The configuration alone decides which words exist (R45). -/
theorem wordExists_congr {s u : State} (hp : u.params = s.params) (a : Word) : u.wordExists a = s.wordExists a := by
  rw [State.wordExists, State.wordExists, hp]

/-- The configuration and the four bytes at an address decide what a load from it answers (R47). -/
theorem memRead_congr {s u : State} {a : Word} (hp : u.params = s.params)
    (hb : ∀ c, a.toNat ≤ c → c < a.toNat + 4 → u.byteAt c = s.byteAt c) : u.memRead a = s.memRead a := by
  have hw : u.wordAt a = s.wordAt a := by
    simp only [State.wordAt]
    rw [hb _ (by omega) (by omega), hb _ (by omega) (by omega), hb _ (by omega) (by omega), hb _ (by omega) (by omega)]
  rw [State.memRead, State.memRead, wordExists_congr hp, hw]

/-- Under one configuration a store faults alike in both states, or stores in both (R47). -/
theorem memWrite_congr {s u : State} (a v : Word) (hp : u.params = s.params) :
    (s.memWrite a v = .ok (s.storeWord a v) ∧ u.memWrite a v = .ok (u.storeWord a v)) ∨
    ∃ f, s.memWrite a v = .error f ∧ u.memWrite a v = .error f := by
  rw [State.memWrite, State.memWrite, wordExists_congr hp]
  repeat' split
  · exact .inr ⟨_, rfl, rfl⟩
  · exact .inr ⟨_, rfl, rfl⟩
  · exact .inl ⟨rfl, rfl⟩

/-- The bytes of a stored word do not depend on the state before. -/
theorem byteAt_storeWord_congr (s u : State) (a v : Word) {c : Nat} (hlo : a.toNat ≤ c) (hhi : c < a.toNat + 4) :
    (u.storeWord a v).byteAt c = (s.storeWord a v).byteAt c := by
  rw [State.byteAt_storeWord, State.byteAt_storeWord]
  repeat' split
  case isFalse => omega
  all_goals rfl

theorem effAddr_congr {s u : State} {rs1 : Reg} (h : u.x rs1 = s.x rs1) (imm : BitVec 12) :
    u.effAddr rs1 imm = s.effAddr rs1 imm := by
  rw [State.effAddr, State.effAddr, h]

section
variable {rd rs1 rs2 : Reg} {imm : BitVec 12} {s u : State}

/-- LW whose access succeeds (R141). -/
theorem exec_lw_of_ok {v : Word} (h : s.memRead (s.effAddr rs1 imm) = .ok v) : exec (.lw rd rs1 imm) s = s.retire rd v := by
  simp only [exec, execLw, h]

/-- LW whose access faults (R141). -/
theorem exec_lw_of_error {f : Fault} (h : s.memRead (s.effAddr rs1 imm) = .error f) : exec (.lw rd rs1 imm) s = s.raise f := by
  simp only [exec, execLw, h]

/-- SW whose access succeeds (R142). -/
theorem exec_sw_of_ok {t : State} (h : s.memWrite (s.effAddr rs1 imm) (s.x rs2) = .ok t) :
    exec (.sw rs2 rs1 imm) s = .next (t.setPc s.nextPc) := by
  simp only [exec, execSw, h]

/-- SW whose access faults (R142). -/
theorem exec_sw_of_error {f : Fault} (h : s.memWrite (s.effAddr rs1 imm) (s.x rs2) = .error f) :
    exec (.sw rs2 rs1 imm) s = s.raise f := by
  simp only [exec, execSw, h]

/-- LW reads its base register and the four bytes at its effective address (R141). -/
theorem AgreeOnSources.goOnAlike_lw (h : AgreeOnSources (.lw rd rs1 imm) s u) : GoOnAlike (.lw rd rs1 imm) s u := by
  have hread : u.memRead (u.effAddr rs1 imm) = s.memRead (s.effAddr rs1 imm) := by
    rw [effAddr_congr (h.regs rs1 (by simp [Instr.sources])) imm]
    exact memRead_congr h.params (h.loaded _ rfl)
  cases hv : s.memRead (s.effAddr rs1 imm) with
  | ok v => exact h.goOnAlike_of_retire rfl rfl (exec_lw_of_ok hv) (exec_lw_of_ok (hread.trans hv))
  | error f => exact h.goOnAlike_of_raise (exec_lw_of_error hv) (exec_lw_of_error (hread.trans hv))

/-- SW reads its base register and the register it stores (R142). -/
theorem AgreeOnSources.goOnAlike_sw (h : AgreeOnSources (.sw rs2 rs1 imm) s u) : GoOnAlike (.sw rs2 rs1 imm) s u := by
  have hea : u.effAddr rs1 imm = s.effAddr rs1 imm := effAddr_congr (h.regs rs1 (by simp [Instr.sources])) imm
  have hv : u.x rs2 = s.x rs2 := h.regs rs2 (by simp [Instr.sources])
  obtain ⟨hs, hu⟩ | ⟨f, hs, hu⟩ := memWrite_congr (s.effAddr rs1 imm) (s.x rs2) h.params <;> rw [← hea, ← hv] at hu
  · refine ⟨_, _, exec_sw_of_ok hs, exec_sw_of_ok hu, h.nextPc_eq, h.mark, by simp [Instr.dest], fun _ ea he => ?_⟩
    obtain rfl : s.effAddr rs1 imm = ea := Option.some.inj he
    rw [hea, hv]
    exact ⟨fun a hlo hhi => byteAt_storeWord_congr s u _ _ hlo hhi, by simp, by simp⟩
  · exact h.goOnAlike_of_raise (exec_sw_of_error hs) (exec_sw_of_error hu)

end

/-- Every instruction goes on alike from states that agree on its sources: the operands of the shared operation it ends in are the
same, by its source registers and PC (R23). -/
theorem AgreeOnSources.goOnAlike {i : Instr} {s u : State} (h : AgreeOnSources i s u) : GoOnAlike i s u := by
  cases i
  case lw => exact h.goOnAlike_lw
  case sw => exact h.goOnAlike_sw
  case add rd rs1 rs2 | sub rd rs1 rs2 | and rd rs1 rs2 | or rd rs1 rs2 | xor rd rs1 rs2 | slt rd rs1 rs2 | sltu rd rs1 rs2
      | sra rd rs1 rs2 | srl rd rs1 rs2 | sll rd rs1 rs2 =>
    have h1 : u.x rs1 = s.x rs1 := h.regs rs1 (by simp [Instr.sources])
    have h2 : u.x rs2 = s.x rs2 := h.regs rs2 (by simp [Instr.sources])
    exact h.goOnAlike_of_retire rfl rfl rfl (congrArg (u.retire rd) (by simp only [h1, h2]))
  case addi rd rs1 _ | andi rd rs1 _ | ori rd rs1 _ | xori rd rs1 _ | slti rd rs1 _ | sltiu rd rs1 _ | srai rd rs1 _
      | srli rd rs1 _ | slli rd rs1 _ =>
    have h1 : u.x rs1 = s.x rs1 := h.regs rs1 (by simp [Instr.sources])
    exact h.goOnAlike_of_retire rfl rfl rfl (congrArg (u.retire rd) (by simp only [h1]))
  case lui => exact h.goOnAlike_of_retire rfl rfl rfl rfl
  case auipc rd _ => exact h.goOnAlike_of_retire rfl rfl rfl (congrArg (u.retire rd) (by rw [h.pc]))
  case jal rd imm =>
    have ht : u.jalTarget imm = s.jalTarget imm := by rw [State.jalTarget, State.jalTarget, h.pc]
    exact h.goOnAlike_of_jump rfl rfl rfl (congrArg (u.jump rd) ht)
  case jalr rd rs1 imm =>
    have ht : u.jalrTarget rs1 imm = s.jalrTarget rs1 imm := by
      rw [State.jalrTarget, State.jalrTarget, h.regs rs1 (by simp [Instr.sources])]
    exact h.goOnAlike_of_jump rfl rfl rfl (congrArg (u.jump rd) ht)
  case beq rs1 rs2 imm | bne rs1 rs2 imm | blt rs1 rs2 imm | bge rs1 rs2 imm | bltu rs1 rs2 imm | bgeu rs1 rs2 imm =>
    have h1 : u.x rs1 = s.x rs1 := h.regs rs1 (by simp [Instr.sources])
    have h2 : u.x rs2 = s.x rs2 := h.regs rs2 (by simp [Instr.sources])
    have ht : u.branchTarget imm = s.branchTarget imm := by rw [State.branchTarget, State.branchTarget, h.pc]
    exact h.goOnAlike_of_branch rfl rfl rfl (congrArg₂ u.branch (by simp only [h1, h2]) ht)

/-- Settles O25, from `AgreeOnSources.goOnAlike`: `exec` answers one next state only. -/
theorem onlyTheNamedSourcesAreRead : Obligations.OnlyTheNamedSourcesAreRead := by
  intro i s u t hs hu hpc hparams hregs hloaded h
  obtain ⟨t', w, ht, hw, same⟩ :=
    AgreeOnSources.goOnAlike (i := i) ⟨hpc, hu.trans hs.symm, hparams, hregs, hloaded⟩
  obtain rfl : t' = t := by simpa [h] using ht.symm
  exact ⟨w, hw, same.pc, same.mark, same.dest, same.memory⟩

end Sys2Proof.Proofs
end

section
namespace Sys2Proof.Proofs
open Sys2Proof

/-! ## Every bit of a scattered immediate (R68, R69, R71) -/

theorem getLsbD_immSOf (w : Word) {i : Nat} (hi : i < 12) :
    (immSOf w).getLsbD i = if i < 5 then w.getLsbD (7 + i) else w.getLsbD (20 + i) := by
  simp only [immSOf, BitVec.getLsbD_append, BitVec.getLsbD_extractLsb']
  interval_cases i <;> simp

theorem getLsbD_immBOf (w : Word) {i : Nat} (hi : i < 13) :
    (immBOf w).getLsbD i =
      if i < 1 then false else if i < 5 then w.getLsbD (7 + i) else if i < 11 then w.getLsbD (20 + i)
      else if i < 12 then w.getLsbD 7 else w.getLsbD 31 := by
  simp only [immBOf, BitVec.getLsbD_append, BitVec.getLsbD_extractLsb']
  interval_cases i <;> simp

theorem getLsbD_immJOf (w : Word) {i : Nat} (hi : i < 21) :
    (immJOf w).getLsbD i =
      if i < 1 then false else if i < 11 then w.getLsbD (20 + i) else if i < 12 then w.getLsbD 20
      else if i < 20 then w.getLsbD i else w.getLsbD 31 := by
  simp only [immJOf, BitVec.getLsbD_append, BitVec.getLsbD_extractLsb']
  interval_cases i <;> simp

/-- The B-immediate of any word is even (R69). -/
@[simp] theorem evenB_immBOf (w : Word) : evenB (immBOf w) = true := by
  rw [evenB, getLsbD_immBOf w (by omega)]
  rfl

/-- The J-immediate of any word is even (R71). -/
@[simp] theorem evenJ_immJOf (w : Word) : evenJ (immJOf w) = true := by
  rw [evenJ, getLsbD_immJOf w (by omega)]
  rfl

/-! ## A word is put together again from its fields, format by format (R63 to R66) -/

section
variable {w : Word} {op f7 : BitVec 7} {f3 : BitVec 3}

theorem encodeR_eq_of_fields (hop : opcodeOf w = op) (h3 : funct3Of w = f3) (h7 : funct7Of w = f7) :
    encodeR f7 (rs2Of w) (rs1Of w) f3 (rdOf w) op = w := by
  subst hop h3 h7
  apply BitVec.eq_of_getLsbD_eq
  intro i hi
  rw [getLsbD_encodeR, getLsbD_opcodeOf, getLsbD_rdOf, getLsbD_funct3Of, getLsbD_rs1Of, getLsbD_rs2Of, getLsbD_funct7Of]
  interval_cases i <;> simp

theorem encodeI_eq_of_fields (hop : opcodeOf w = op) (h3 : funct3Of w = f3) :
    encodeI (immIOf w) (rs1Of w) f3 (rdOf w) op = w := by
  subst hop h3
  apply BitVec.eq_of_getLsbD_eq
  intro i hi
  rw [getLsbD_encodeI, getLsbD_opcodeOf, getLsbD_rdOf, getLsbD_funct3Of, getLsbD_rs1Of, getLsbD_immIOf]
  interval_cases i <;> simp

theorem encodeS_eq_of_fields (hop : opcodeOf w = op) (h3 : funct3Of w = f3) :
    encodeS (immSOf w) (rs2Of w) (rs1Of w) f3 op = w := by
  subst hop h3
  apply BitVec.eq_of_getLsbD_eq
  intro i hi
  rw [getLsbD_encodeS _ _ _ _ _ hi, getLsbD_opcodeOf, getLsbD_funct3Of, getLsbD_rs1Of, getLsbD_rs2Of]
  interval_cases i <;> simp [-BitVec.getLsbD_eq_getElem, getLsbD_immSOf]

theorem encodeB_eq_of_fields (hop : opcodeOf w = op) (h3 : funct3Of w = f3) :
    encodeB (immBOf w) (rs2Of w) (rs1Of w) f3 op = w := by
  subst hop h3
  apply BitVec.eq_of_getLsbD_eq
  intro i hi
  rw [getLsbD_encodeB _ _ _ _ _ hi, getLsbD_opcodeOf, getLsbD_funct3Of, getLsbD_rs1Of, getLsbD_rs2Of]
  interval_cases i <;> simp [-BitVec.getLsbD_eq_getElem, getLsbD_immBOf]

theorem encodeU_eq_of_opcodeOf (hop : opcodeOf w = op) : encodeU (immUOf w) (rdOf w) op = w := by
  subst hop
  apply BitVec.eq_of_getLsbD_eq
  intro i hi
  rw [getLsbD_encodeU, getLsbD_opcodeOf, getLsbD_rdOf, getLsbD_immUOf]
  interval_cases i <;> simp

theorem encodeJ_eq_of_opcodeOf (hop : opcodeOf w = op) : encodeJ (immJOf w) (rdOf w) op = w := by
  subst hop
  apply BitVec.eq_of_getLsbD_eq
  intro i hi
  rw [getLsbD_encodeJ _ _ _ hi, getLsbD_opcodeOf, getLsbD_rdOf]
  interval_cases i <;> simp [-BitVec.getLsbD_eq_getElem, getLsbD_immJOf]

end

/-! ## What the decoder reads encodes back (R74) -/

theorem decodeWord_eq_ok_iff (w : Word) (i : Instr) : decodeWord w = .ok i ↔ decodeRow w = some i := by
  rw [decodeWord]
  cases decodeRow w <;> simp

/-- The word `w` is the encoding of the well-formed instruction `i`. -/
structure EncodedBy (w : Word) (i : Instr) : Prop where
  wellFormed : i.wellFormed = true
  word : encode i = w

section
variable {w : Word} {i : Instr}

theorem encodedBy_of_decodeRegReg (hop : opcodeOf w = 0b0110011#7) (h : decodeRegReg w = some i) : EncodedBy w i := by
  unfold decodeRegReg at h
  split at h <;> cases h
  all_goals
    rename_i h7 h3
    exact ⟨rfl, encodeR_eq_of_fields hop h3 h7⟩

/-- The shifts, at funct3 `001` and `101`, are R-type words; the rest is I-type (R64). -/
theorem encodedBy_of_decodeRegImm (hop : opcodeOf w = 0b0010011#7) (h : decodeRegImm w = some i) : EncodedBy w i := by
  unfold decodeRegImm at h
  split at h
  case h_7 h3 | h_8 h3 =>
    split at h <;> cases h
    all_goals
      rename_i h7
      exact ⟨rfl, encodeR_eq_of_fields hop h3 h7⟩
  all_goals
    cases h
    rename_i h3
    exact ⟨rfl, encodeI_eq_of_fields hop h3⟩

theorem encodedBy_of_decodeBranch (hop : opcodeOf w = 0b1100011#7) (h : decodeBranch w = some i) : EncodedBy w i := by
  unfold decodeBranch at h
  split at h <;> cases h
  all_goals
    rename_i h3
    exact ⟨evenB_immBOf w, encodeB_eq_of_fields hop h3⟩

/-- The row fixes the opcode and funct fields, and the operands are the word's other fields: no bit is left out. -/
theorem encodedBy_of_decodeRow (h : decodeRow w = some i) : EncodedBy w i := by
  unfold decodeRow at h
  split at h
  next hop =>
    split at h <;> cases h
    next h3 => exact ⟨rfl, encodeI_eq_of_fields hop h3⟩
  next hop => exact encodedBy_of_decodeRegImm hop h
  next hop => cases h; exact ⟨rfl, encodeU_eq_of_opcodeOf hop⟩
  next hop =>
    split at h <;> cases h
    next h3 => exact ⟨rfl, encodeS_eq_of_fields hop h3⟩
  next hop => exact encodedBy_of_decodeRegReg hop h
  next hop => cases h; exact ⟨rfl, encodeU_eq_of_opcodeOf hop⟩
  next hop => exact encodedBy_of_decodeBranch hop h
  next hop =>
    split at h <;> cases h
    next h3 => exact ⟨rfl, encodeI_eq_of_fields hop h3⟩
  next hop => cases h; exact ⟨evenJ_immJOf w, encodeJ_eq_of_opcodeOf hop⟩
  next => cases h

end

/-- Settles O37, from `encodedBy_of_decodeRow`: the decoder's operands and the row's constant fields cover the word. -/
theorem decodedWordsEncodeBack : Obligations.DecodedWordsEncodeBack := by
  intro w i h
  obtain ⟨hwf, hword⟩ := encodedBy_of_decodeRow ((decodeWord_eq_ok_iff w i).1 h)
  exact ⟨hwf, hword⟩

end Sys2Proof.Proofs
end

section
namespace Sys2Proof.Proofs
open Sys2Proof Sys2Proof.Laws

/-! ## What a masked word says of the fields (R73) -/

section
variable {w c : Word}

theorem fields_of_and_maskR (h : w &&& 0xFE00707F#32 = c) :
    opcodeOf w = opcodeOf c ∧ funct3Of w = funct3Of c ∧ funct7Of w = funct7Of c := by
  have hw := encodeR_and_mask (funct7Of w) (rs2Of w) (rs1Of w) (funct3Of w) (rdOf w) (opcodeOf w)
  rw [encodeR_eq_of_fields rfl rfl rfl, h] at hw
  simp [hw]

theorem fields_of_and_maskI (h : w &&& 0x0000707F#32 = c) : opcodeOf w = opcodeOf c ∧ funct3Of w = funct3Of c := by
  have hw := encodeI_and_mask (immIOf w) (rs1Of w) (funct3Of w) (rdOf w) (opcodeOf w)
  rw [encodeI_eq_of_fields rfl rfl, h] at hw
  simp [hw]

theorem opcodeOf_of_and_maskU (h : w &&& 0x0000007F#32 = c) : opcodeOf w = opcodeOf c := by
  have hw := encodeU_and_mask (immUOf w) (rdOf w) (opcodeOf w)
  rw [encodeU_eq_of_opcodeOf rfl, h] at hw
  simp [hw]

end

/-- Every encoded word matches its instruction's row: the family of Laws/PerInstr.lean as one statement. -/
theorem encodesItsRow (i : Instr) : EncodesItsRow.Statement i := by
  cases i
  exacts [EncodesItsRow.add .., EncodesItsRow.sub .., EncodesItsRow.and .., EncodesItsRow.or .., EncodesItsRow.xor ..,
    EncodesItsRow.slt .., EncodesItsRow.sltu .., EncodesItsRow.sra .., EncodesItsRow.srl .., EncodesItsRow.sll ..,
    EncodesItsRow.addi .., EncodesItsRow.andi .., EncodesItsRow.ori .., EncodesItsRow.xori .., EncodesItsRow.slti ..,
    EncodesItsRow.sltiu .., EncodesItsRow.srai .., EncodesItsRow.srli .., EncodesItsRow.slli .., EncodesItsRow.lui ..,
    EncodesItsRow.auipc .., EncodesItsRow.lw .., EncodesItsRow.sw .., EncodesItsRow.jal .., EncodesItsRow.jalr ..,
    EncodesItsRow.beq .., EncodesItsRow.bne .., EncodesItsRow.blt .., EncodesItsRow.bge .., EncodesItsRow.bltu ..,
    EncodesItsRow.bgeu ..]

/-- The row of the opcode map whose instruction the decoder reads from a word, if there is one. -/
def decodedRow (w : Word) : Option (Fin 31) := (decodeRow w).map Instr.rowIndex

/-- The decoder asks for no field that the row's mask does not show on its way to that row (R73, "Seen by opcode"). -/
theorem decodedRow_of_matches {w : Word} {k : Fin 31} (h : w &&& opcodeMap[k].1 = opcodeMap[k].2) :
    decodedRow w = some k := by
  unfold decodedRow decodeRow decodeRegReg decodeRegImm decodeBranch
  match k with
  | 0 | 1 | 2 | 3 | 4 | 5 | 6 | 7 | 8 | 9 | 16 | 17 | 18 =>
    -- R-type, and the shifts by constant
    obtain ⟨hop, h3, h7⟩ := fields_of_and_maskR h
    rw [hop, h3, h7]
    rfl
  | 19 | 20 | 23 =>
    -- LUI, AUIPC, JAL
    rw [opcodeOf_of_and_maskU h]
    rfl
  | 10 | 11 | 12 | 13 | 14 | 15 | 21 | 22 | 24 | 25 | 26 | 27 | 28 | 29 | 30 =>
    -- the rows with an I-, S- or B-immediate
    obtain ⟨hop, h3⟩ := fields_of_and_maskI h
    rw [hop, h3]
    rfl
  | ⟨n + 31, hn⟩ => omega

/-- Settles O35. A word that matches has the row's constant fields, so the decoder gets to that row; a word that decodes is the
encoding of what it decodes to, and every encoding matches its row (R73, R74). -/
theorem aWordIsAnInstructionExactlyWhenItMatchesItsRow :
    Obligations.AWordIsAnInstructionExactlyWhenItMatchesItsRow := by
  intro w k
  simp only [decodeWord_eq_ok_iff]
  constructor
  · intro h
    simpa only [decodedRow, Option.map_eq_some_iff] using decodedRow_of_matches h
  · rintro ⟨i, hi, rfl⟩
    obtain ⟨-, rfl⟩ := encodedBy_of_decodeRow hi
    exact encodesItsRow i

end Sys2Proof.Proofs
end

section
namespace Sys2Proof.Proofs
open Sys2Proof Sys2Proof.Machine

/-! ## A constant from its upper and its lower part (R88) -/

/-- The low bits of a difference are the difference of the low bits. -/
theorem setWidth_sub_of_le {m n : Nat} (h : n ≤ m) (x y : BitVec m) :
    (x - y).setWidth n = x.setWidth n - y.setWidth n := by
  rw [eq_comm, BitVec.sub_eq_iff_eq_add, ← BitVec.setWidth_add _ _ h, BitVec.sub_add_cancel]

/-- Sign extension keeps the low bits. -/
theorem setWidth_sext (imm : BitVec 12) : (sext imm).setWidth 12 = imm := by
  apply BitVec.eq_of_getLsbD_eq
  intro i hi
  rw [BitVec.getLsbD_setWidth, sext_getLsbD imm (by omega)]
  simp [hi]

/-- A word without low bits is the U-immediate of its upper part (R70). -/
theorem upper_extractLsb' {x : Word} (h : x.setWidth 12 = 0#12) : upper (x.extractLsb' 12 20) = x := by
  rw [upper, ← h, BitVec.setWidth_eq_extractLsb' (by omega)]
  exact (BitVec.extractLsb'_append_extractLsb'_eq_extractLsb' rfl).trans BitVec.extractLsb'_eq_self

/-- The parts that `li` splits a constant into add up to it: the upper part makes good the sign of the lower (R88). -/
theorem upper_add_sext (v : Word) :
    upper ((v - sext (v.extractLsb' 0 12)).extractLsb' 12 20) + sext (v.extractLsb' 0 12) = v := by
  have hlow : (v - sext (v.extractLsb' 0 12)).setWidth 12 = 0#12 := by
    rw [setWidth_sub_of_le (by omega), setWidth_sext, BitVec.setWidth_eq_extractLsb' (by omega), BitVec.sub_self]
  rw [upper_extractLsb' hlow, BitVec.sub_add_cancel]

/-- Two writes to one register leave what the second one writes. -/
theorem writesRegister_trans {s t u : State} {rd : Reg} {v v' p p' : Word} (h : WritesRegister s t rd v p)
    (h' : WritesRegister t u rd v' p') : WritesRegister s u rd v' p' where
  zero := h'.zero
  dest := h'.dest
  others r hr := (h'.others r hr).trans (h.others r hr)
  pc := h'.pc
  memory a := (h'.memory a).trans (h.memory a)
  stored := h'.stored.trans h.stored
  mark := h'.mark.trans h.mark
  params := h'.params.trans h.params

/-- Settles O42: ADDI adds the lower part to what LUI left in the register, and PC moves on twice. -/
theorem luiThenAddiBuildsAnyConstant : Obligations.LuiThenAddiBuildsAnyConstant := by
  intro rd v s
  obtain ⟨t, hlui, -, ht⟩ := s.retire_spec rd (upper ((v - sext (v.extractLsb' 0 12)).extractLsb' 12 20))
  obtain ⟨u, haddi, -, hu⟩ := t.retire_spec rd (t.x rd + sext (v.extractLsb' 0 12))
  refine ⟨t, u, hlui, haddi, fun hrd => ?_⟩
  have hpc : t.nextPc = s.pc + 8#32 := by
    rw [State.nextPc, ht.pc, State.nextPc, BitVec.add_assoc]
    rfl
  rw [ht.dest hrd, upper_add_sext, hpc] at hu
  exact writesRegister_trans ht hu

end Sys2Proof.Proofs
end

section
namespace Sys2Proof.Proofs
open Sys2Proof Sys2Proof.Machine

/-! ## The decoder reads an encoded word back (R74) -/

/-- The fields of an encoded word are the constants of the instruction's row and its operands, so the decoder gets to that row and
reads those operands (R63 to R73). -/
theorem decodeWord_encode {i : Instr} (hwf : i.wellFormed = true) : decodeWord (encode i) = .ok i := by
  rw [decodeWord_eq_ok_iff]
  cases i
  case add | sub | and | or | xor | slt | sltu | sra | srl | sll =>
    simp [encode, decodeRow, decodeRegReg]
  case srai | srli | slli | addi | andi | ori | xori | slti | sltiu =>
    simp [encode, decodeRow, decodeRegImm]
  case beq | bne | blt | bge | bltu | bgeu =>
    simp [encode, decodeRow, decodeBranch, immBOf_encodeB hwf]
  case jal => simp [encode, decodeRow, immJOf_encodeJ hwf]
  case lui | auipc | lw | sw | jalr => simp [encode, decodeRow]

/-! ## An instruction that ends by writing one register (R13, R25) -/

/-- An instruction that retires with a value writes that value and goes on at the next word: its meaning comes down to a property
of the value. -/
theorem completes_of_retire {i : Instr} {s : State} {rd : Reg} {v : Word} {P : Word → Prop} (h : exec i s = s.retire rd v)
    (hv : P v) : ∃ t v, exec i s = .next t ∧ WritesRegister s t rd v (s.pc + 4#32) ∧ P v := by
  obtain ⟨t, ht, -, hw⟩ := s.retire_spec rd v
  exact ⟨t, v, h.trans ht, hw, hv⟩

/-! ## The values of the register-register instructions (R6 to R8) -/

/-- The difference modulo 2^32 is that of the exact integers (R6). -/
theorem toNat_sub_eq_emod (a b : Word) : ((a - b).toNat : Int) = ((a.toNat : Int) - (b.toNat : Int)) % 2 ^ 32 := by
  rw [BitVec.toNat_sub]
  omega

/-- SLT's value (R7). -/
theorem bool32_ltSigned (a b : Word) :
    bool32 (ltSigned a b) = if a.toInt < b.toInt then 0x00000001#32 else 0x00000000#32 := by
  simp only [bool32, ltSigned_iff]

/-- SLTU's value (R7). -/
theorem bool32_ltUnsigned (a b : Word) :
    bool32 (ltUnsigned a b) = if a.toNat < b.toNat then 0x00000001#32 else 0x00000000#32 := by
  simp only [bool32, ltUnsigned_iff]

/-- The wrapped sum is below an addend exactly when the exact sum does not fit (R6). -/
theorem toNat_add_lt_iff (a b : Word) : (a + b).toNat < a.toNat ↔ 2 ^ 32 ≤ a.toNat + b.toNat := by
  rw [BitVec.toNat_add]
  omega

/-- Past bit 31 the logical shift brings in zeros (R8). -/
theorem shiftRightLogical_getLsbD_eq_ite (a : Word) (n : BitVec 5) (i : Nat) :
    (shiftRightLogical a n).getLsbD i = if i + n.toNat ≤ 31 then a.getLsbD (i + n.toNat) else false := by
  rw [shiftRightLogical_getLsbD]
  split
  · rfl
  · exact BitVec.getLsbD_of_ge a _ (by omega)

/-! ## The register-register instructions (R102 to R112) -/

/-- Settles O1: both instructions retire, with the sum and the difference of words. -/
theorem addSubWriteTheWrappedResult : Obligations.AddSubWriteTheWrappedResult := by
  intro rd rs1 rs2 s
  exact ⟨decodeWord_encode (i := .add rd rs1 rs2) rfl, decodeWord_encode (i := .sub rd rs1 rs2) rfl,
    completes_of_retire rfl (BitVec.toNat_add _ _), completes_of_retire rfl (toNat_sub_eq_emod _ _)⟩

/-- Settles O2: each instruction retires, with the operation of words that acts on every bit. -/
theorem andOrXorActBitwise : Obligations.AndOrXorActBitwise := by
  intro rd rs1 rs2 s
  exact ⟨decodeWord_encode (i := .and rd rs1 rs2) rfl, decodeWord_encode (i := .or rd rs1 rs2) rfl,
    decodeWord_encode (i := .xor rd rs1 rs2) rfl, completes_of_retire rfl fun _ _ => BitVec.getLsbD_and,
    completes_of_retire rfl fun _ _ => BitVec.getLsbD_or, completes_of_retire rfl fun _ _ => BitVec.getLsbD_xor⟩

/-- Settles O3: both instructions retire, with the condition's value. -/
theorem sltSltuWriteTheComparison : Obligations.SltSltuWriteTheComparison := by
  intro rd rs1 rs2 s
  exact ⟨decodeWord_encode (i := .slt rd rs1 rs2) rfl, decodeWord_encode (i := .sltu rd rs1 rs2) rfl,
    completes_of_retire rfl (bool32_ltSigned _ _), completes_of_retire rfl (bool32_ltUnsigned _ _)⟩

/-- Settles O4: each instruction retires with its shift, bit by bit, by an amount that is the second source modulo 32. -/
theorem registerShiftsUseTheLowFiveBits : Obligations.RegisterShiftsUseTheLowFiveBits := by
  intro rd rs1 rs2 s
  refine ⟨decodeWord_encode (i := .sra rd rs1 rs2) rfl, decodeWord_encode (i := .srl rd rs1 rs2) rfl,
    decodeWord_encode (i := .sll rd rs1 rs2) rfl, completes_of_retire rfl fun i hi => ?_,
    completes_of_retire rfl fun i hi => ?_, completes_of_retire rfl fun i hi => ?_⟩ <;>
    rw [← shiftAmount_toNat]
  · rw [shiftRightArith_getLsbD _ _ hi]
    simp only [Nat.lt_succ_iff]
  · exact shiftRightLogical_getLsbD_eq_ite _ _ i
  · rw [shiftLeft_getLsbD _ _ hi]
    simp only [← Nat.not_lt, ite_not]

/-- Settles O43: the sum that SLTU reads is the wrapped one, and the addend is the old one, for `sum` is another register. -/
theorem sltuAfterAddGivesTheCarry : Obligations.SltuAfterAddGivesTheCarry := by
  intro sum a b c s t hsum hne hc hadd
  obtain ⟨t', ht', -, ht⟩ := s.retire_spec sum (s.x a + s.x b)
  obtain rfl : t' = t := Host.Outcome.next.inj (ht'.symm.trans hadd)
  obtain ⟨u, hu, -, hwu⟩ := t'.retire_spec c (bool32 (ltUnsigned (t'.x sum) (t'.x a)))
  refine ⟨u, hu, ?_⟩
  rw [hwu.dest hc, bool32_ltUnsigned, ht.dest hsum, ht.others a hne.symm]
  simp only [toNat_add_lt_iff]

end Sys2Proof.Proofs
end

section
namespace Sys2Proof.Proofs
open Sys2Proof Sys2Proof.Machine

/-! ## The values of the register-immediate instructions (R6 to R9, R70) -/

/-- A sign-extended immediate read as unsigned is the immediate's signed value modulo 2^32 (R9). -/
theorem toNat_sext_eq_emod (imm : BitVec 12) : ((sext imm).toNat : Int) = imm.toInt % 2 ^ 32 := by
  rw [← sext_toInt (by omega) imm, BitVec.toInt_eq_toNat_cond]
  have := (sext imm).isLt
  split <;> omega

/-- ADDI's value: the sum modulo 2^32 is that of the exact integers (R6, R122). -/
theorem toNat_add_sext_eq_emod (a : Word) (imm : BitVec 12) :
    ((a + sext imm).toNat : Int) = ((a.toNat : Int) + imm.toInt) % 2 ^ 32 := by
  rw [BitVec.toNat_add, Int.natCast_mod, Int.natCast_add, toNat_sext_eq_emod]
  exact Int.add_emod_emod _ _ _

/-- SLTI's value (R126). -/
theorem bool32_ltSigned_sext (a : Word) (imm : BitVec 12) :
    bool32 (ltSigned a (sext imm)) = if a.toInt < imm.toInt then 0x00000001#32 else 0x00000000#32 := by
  rw [bool32_ltSigned, sext_toInt (by omega)]

/-- SLTIU's value (R127). -/
theorem bool32_ltUnsigned_sext (a : Word) (imm : BitVec 12) :
    bool32 (ltUnsigned a (sext imm)) =
      if (a.toNat : Int) < imm.toInt % 2 ^ 32 then 0x00000001#32 else 0x00000000#32 := by
  simp only [bool32_ltUnsigned, ← toNat_sext_eq_emod, Int.ofNat_lt]

/-- AUIPC's value (R70, R132). -/
theorem toNat_add_upper (a : Word) (imm : BitVec 20) :
    (a + upper imm).toNat = (a.toNat + imm.toNat * 2 ^ 12) % 2 ^ 32 := by
  rw [BitVec.toNat_add, upper_toNat]

/-- The amount of a shift by register is the five-bit number that the register is modulo 32 (R101). -/
theorem shiftAmount_eq_of_toNat_mod {v : Word} {n : BitVec 5} (h : v.toNat % 32 = n.toNat) : shiftAmount v = n :=
  BitVec.eq_of_toNat_eq ((shiftAmount_toNat v).trans h)

/-! ## The register-immediate instructions (R120 to R132) -/

/-- Settles O5: ADDI retires with the sum of words. -/
theorem addiWritesTheWrappedSum : Obligations.AddiWritesTheWrappedSum := by
  intro rd rs1 imm s
  exact ⟨decodeWord_encode (i := .addi rd rs1 imm) rfl, completes_of_retire rfl (toNat_add_sext_eq_emod _ _)⟩

/-- Settles O6: each instruction retires, with the operation of words that acts on every bit of the source and of the sign-extended
constant. -/
theorem bitwiseImmediatesSignExtend : Obligations.BitwiseImmediatesSignExtend := by
  intro rd rs1 imm s
  refine ⟨decodeWord_encode (i := .andi rd rs1 imm) rfl, decodeWord_encode (i := .ori rd rs1 imm) rfl,
    decodeWord_encode (i := .xori rd rs1 imm) rfl, completes_of_retire rfl fun i hi => ?_,
    completes_of_retire rfl fun i hi => ?_, completes_of_retire rfl fun i hi => ?_⟩
  · rw [BitVec.getLsbD_and, sext_getLsbD imm hi]
  · rw [BitVec.getLsbD_or, sext_getLsbD imm hi]
  · rw [BitVec.getLsbD_xor, sext_getLsbD imm hi]

/-- Settles O7: both instructions retire, with the condition's value. -/
theorem sltiSltiuCompareWithTheSignExtendedConstant : Obligations.SltiSltiuCompareWithTheSignExtendedConstant := by
  intro rd rs1 imm s
  exact ⟨decodeWord_encode (i := .slti rd rs1 imm) rfl, decodeWord_encode (i := .sltiu rd rs1 imm) rfl,
    completes_of_retire rfl (bool32_ltSigned_sext _ _), completes_of_retire rfl (bool32_ltUnsigned_sext _ _)⟩

/-- Settles O8: each instruction retires with its shift, bit by bit. -/
theorem constantShiftsUseTheFiveBitAmount : Obligations.ConstantShiftsUseTheFiveBitAmount := by
  intro rd rs1 shamt s
  refine ⟨decodeWord_encode (i := .srai rd rs1 shamt) rfl, decodeWord_encode (i := .srli rd rs1 shamt) rfl,
    decodeWord_encode (i := .slli rd rs1 shamt) rfl, completes_of_retire rfl fun i hi => ?_,
    completes_of_retire rfl fun i _ => shiftRightLogical_getLsbD_eq_ite _ _ i, completes_of_retire rfl fun i hi => ?_⟩
  · rw [shiftRightArith_getLsbD _ _ hi]
    simp only [Nat.lt_succ_iff]
  · rw [shiftLeft_getLsbD _ _ hi]
    simp only [← Nat.not_lt, ite_not]

/-- Settles O9: both instructions retire, with the field in the upper 20 bits and with its sum with PC. -/
theorem luiAuipcPlaceTheUpperConstant : Obligations.LuiAuipcPlaceTheUpperConstant := by
  intro rd imm s
  exact ⟨decodeWord_encode (i := .lui rd imm) rfl, decodeWord_encode (i := .auipc rd imm) rfl,
    completes_of_retire rfl (upper_toNat imm), completes_of_retire rfl (toNat_add_upper _ _)⟩

/-- Settles O10: an instruction and its namesake retire with one function of the second operand, and that operand is the same
constant or the same amount in both. -/
theorem immediateFormsMatchRegisterForms : Obligations.ImmediateFormsMatchRegisterForms := by
  intro rd rs1 rs2 imm shamt s
  constructor
  · intro h
    have hsrc : sext imm = s.x rs2 := h.symm
    exact ⟨congrArg (fun c => s.retire rd (s.x rs1 + c)) hsrc, congrArg (fun c => s.retire rd (s.x rs1 &&& c)) hsrc,
      congrArg (fun c => s.retire rd (s.x rs1 ||| c)) hsrc, congrArg (fun c => s.retire rd (s.x rs1 ^^^ c)) hsrc,
      congrArg (fun c => s.retire rd (bool32 (ltSigned (s.x rs1) c))) hsrc,
      congrArg (fun c => s.retire rd (bool32 (ltUnsigned (s.x rs1) c))) hsrc⟩
  · intro h
    have hamount : shamt = shiftAmount (s.x rs2) := (shiftAmount_eq_of_toNat_mod h).symm
    exact ⟨congrArg (fun n => s.retire rd (shiftRightArith (s.x rs1) n)) hamount,
      congrArg (fun n => s.retire rd (shiftRightLogical (s.x rs1) n)) hamount,
      congrArg (fun n => s.retire rd (shiftLeft (s.x rs1) n)) hamount⟩

end Sys2Proof.Proofs
end

section
namespace Sys2Proof.Proofs
open Sys2Proof Sys2Proof.Machine

/-! ## Which fault an outcome takes (R170) -/

/-- The outcome is a next state marked with the fault, the model's form of taking it (notes/assumptions/5.md). -/
def TakesFault (o : Host.Outcome State Fault Refusal) (f : Fault) : Prop := ∃ t, o = .next t ∧ t.faulted = some f

@[simp] theorem takesFault_next (t : State) (f : Fault) : TakesFault (.next t) f ↔ t.faulted = some f := by
  simp [TakesFault]

@[simp] theorem takesFault_raise (s : State) (g f : Fault) : TakesFault (s.raise g) f ↔ f = g := by
  simp [State.raise, eq_comm]

section
variable {s : State} {f : Fault}

theorem not_takesFault_retire (hrun : s.faulted = none) (rd : Reg) (v : Word) : ¬ TakesFault (s.retire rd v) f := by
  simp [State.retire, hrun]

/-- A jump faults for its target alone (R150). -/
theorem takesFault_jump_iff (hrun : s.faulted = none) (rd : Reg) (target : Word) :
    TakesFault (s.jump rd target) f ↔ ¬ IsWordAddress target ∧ f = .instructionAddressMisaligned target := by
  rw [← aligned_iff, State.jump]
  split <;> simp [*]

/-- A branch faults for its target alone, and only when it is taken (R160). -/
theorem takesFault_branch_iff (hrun : s.faulted = none) (taken : Bool) (target : Word) :
    TakesFault (s.branch taken target) f ↔
      taken = true ∧ ¬ IsWordAddress target ∧ f = .instructionAddressMisaligned target := by
  rw [← aligned_iff, State.branch]
  repeat' split
  all_goals simp [*]

end

/-! ## The part of the fault table that an instruction decides (R171) -/

/-- The two conditions of the table at an access, where one is made: its address is misaligned, or it is aligned and no word exists
there (R172). -/
def AccessRaises (s : State) (address : Option Word) (misaligned missing : Word → Fault) (f : Fault) : Prop :=
  ∃ a, address = some a ∧
    ((¬ IsWordAddress a ∧ f = misaligned a) ∨ (IsWordAddress a ∧ ¬ s.Exists a ∧ f = missing a))

/-- The conditions of the table at the instruction that is executed: that of its target and those of its access. The faults of a
fetch and of decoding are taken before there is one (R172). -/
def InstrRaises (i : Instr) (s : State) (f : Fault) : Prop :=
  (∃ a, i.takenTarget s = some a ∧ ¬ IsWordAddress a ∧ f = .instructionAddressMisaligned a) ∨
  AccessRaises s (i.loadAddress s) .loadAddressMisaligned .loadAccessFault f ∨
  AccessRaises s (i.storeAddress s) .storeAddressMisaligned .storeAccessFault f

section
variable {i : Instr} {s : State} {f : Fault}

@[simp] theorem not_accessRaises_none (misaligned missing : Word → Fault) : ¬ AccessRaises s none misaligned missing f := by
  simp [AccessRaises]

/-- An instruction that makes no access can fault for its target alone. -/
theorem instrRaises_iff_of_no_access (hload : i.loadAddress s = none) (hstore : i.storeAddress s = none) :
    InstrRaises i s f ↔
      ∃ a, i.takenTarget s = some a ∧ ¬ IsWordAddress a ∧ f = .instructionAddressMisaligned a := by
  simp [InstrRaises, hload, hstore]

/-- An outcome that is decided by an access as R47 says takes the fault of the access. -/
theorem takesFault_iff_accessRaises {o : Host.Outcome State Fault Refusal} {a : Word} {misaligned missing : Word → Fault}
    (h : (IsWordAddress a ∧ s.Exists a ∧ ¬ TakesFault o f) ∨ (¬ IsWordAddress a ∧ o = s.raise (misaligned a)) ∨
      (IsWordAddress a ∧ ¬ s.Exists a ∧ o = s.raise (missing a))) :
    TakesFault o f ↔ AccessRaises s (some a) misaligned missing f := by
  simp only [AccessRaises, Option.some.injEq, exists_eq_left']
  obtain ⟨hw, hex, ho⟩ | ⟨hw, rfl⟩ | ⟨hw, hex, rfl⟩ := h
  · tauto
  · rw [takesFault_raise]; tauto
  · rw [takesFault_raise]; tauto

/-- LW takes the fault of its access (R141). -/
theorem takesFault_lw_iff (hrun : s.faulted = none) (rd rs1 : Reg) (imm : BitVec 12) :
    TakesFault (exec (.lw rd rs1 imm) s) f ↔ InstrRaises (.lw rd rs1 imm) s f := by
  rw [takesFault_iff_accessRaises ((s.memRead_cases (s.effAddr rs1 imm)).imp
    (fun ⟨hw, hex, h⟩ => ⟨hw, hex, exec_lw_of_ok h ▸ not_takesFault_retire hrun rd _⟩)
    (Or.imp (And.imp_right exec_lw_of_error) (And.imp_right (And.imp_right exec_lw_of_error))))]
  simp [InstrRaises, Instr.takenTarget, Instr.loadAddress, Instr.storeAddress, State.effAddr, sext]

/-- SW takes the fault of its access (R142). -/
theorem takesFault_sw_iff (hrun : s.faulted = none) (rs2 rs1 : Reg) (imm : BitVec 12) :
    TakesFault (exec (.sw rs2 rs1 imm) s) f ↔ InstrRaises (.sw rs2 rs1 imm) s f := by
  rw [takesFault_iff_accessRaises ((s.memWrite_cases (s.effAddr rs1 imm) (s.x rs2)).imp
    (fun ⟨hw, hex, h⟩ => ⟨hw, hex, by simp [exec_sw_of_ok h, hrun]⟩)
    (Or.imp (And.imp_right exec_sw_of_error) (And.imp_right (And.imp_right exec_sw_of_error))))]
  simp [InstrRaises, Instr.takenTarget, Instr.loadAddress, Instr.storeAddress, State.effAddr, sext]

/-- An instruction takes exactly the faults that its part of the table names, by the five ways in which it can end. -/
theorem takesFault_exec_iff (hrun : s.faulted = none) : TakesFault (exec i s) f ↔ InstrRaises i s f := by
  obtain ⟨rd, v, -, ht, hl, hst, he⟩ | ⟨rd, rs1, imm, rfl, -⟩ | ⟨rs2, rs1, imm, rfl, -⟩ |
    ⟨rd, target, -, ht, hl, hst, he⟩ | ⟨taken, target, -, ht, hl, hst, he⟩ := exec_shape i s
  · rw [he, instrRaises_iff_of_no_access hl hst]
    simp [ht, not_takesFault_retire hrun]
  · exact takesFault_lw_iff hrun rd rs1 imm
  · exact takesFault_sw_iff hrun rs2 rs1 imm
  · rw [he, takesFault_jump_iff hrun, instrRaises_iff_of_no_access hl hst]
    simp [ht]
  · rw [he, takesFault_branch_iff hrun, instrRaises_iff_of_no_access hl hst]
    cases taken <;> simp [ht]

end

/-! ## The whole table, by what the fetch and the decoder answer (R171, R172) -/

/-- A word matches some row of the opcode map exactly when the decoder reads an instruction from it (R73, R80). -/
theorem exists_row_matches_iff (w : Word) : (∃ row ∈ opcodeMap, w &&& row.1 = row.2) ↔ ∃ i, decodeWord w = .ok i := by
  constructor
  · rintro ⟨row, hrow, h⟩
    obtain ⟨k, rfl⟩ := List.mem_iff_get.1 hrow
    obtain ⟨i, hi, -⟩ := (aWordIsAnInstructionExactlyWhenItMatchesItsRow w k).1 h
    exact ⟨i, hi⟩
  · rintro ⟨i, hi⟩
    exact ⟨i.row, List.getElem_mem _, (aWordIsAnInstructionExactlyWhenItMatchesItsRow w i.rowIndex).2 ⟨i, hi, rfl⟩⟩

theorem no_row_matches_iff (w : Word) : (∀ row ∈ opcodeMap, w &&& row.1 ≠ row.2) ↔ ∀ i, decodeWord w ≠ .ok i := by
  rw [← not_exists, ← exists_row_matches_iff]
  simp only [not_exists, not_and, ne_eq]

section
variable {s : State} {f : Fault}

/-- The table of R171 read in the order of R172: first the fetch may name a fault, then the decoder, then the instruction. -/
theorem raises_iff : s.Raises f ↔
    (¬ s.Exists s.pc ∧ f = .instructionAccessFault s.pc) ∨
    (s.Exists s.pc ∧ ¬ s.Fetchable ∧ f = .fetchAfterStore s.pc) ∨
    (s.Fetchable ∧ (∀ i, decodeWord (s.wordAt s.pc) ≠ .ok i) ∧ f = .illegalInstruction (s.wordAt s.pc)) ∨
    (s.Fetchable ∧ ∃ i, decodeWord (s.wordAt s.pc) = .ok i ∧ InstrRaises i s f) := by
  cases f <;> simp only [State.Raises, InstrRaises, AccessRaises, reduceCtorEq, and_false, exists_false, or_false, false_or,
    Fault.instructionAccessFault.injEq, Fault.fetchAfterStore.injEq, Fault.illegalInstruction.injEq]
  case instructionAccessFault a => exact and_comm
  case fetchAfterStore a =>
    have hstored : (s.params.ifetchCoherent = false ∧ s.pc.toNat ∈ s.stored) ↔
        ¬ (s.params.ifetchCoherent = true ∨ s.pc.toNat ∉ s.stored) := by simp
    rw [hstored]
    tauto
  case illegalInstruction w =>
    constructor
    · rintro ⟨hf, rfl, h⟩
      exact ⟨hf, (no_row_matches_iff _).1 h, rfl⟩
    · rintro ⟨hf, h, rfl⟩
      exact ⟨hf, rfl, (no_row_matches_iff _).2 h⟩
  all_goals simp [and_assoc]

/-- Where the fetch faults, the table names its fault and no other (R172). -/
theorem raises_iff_of_fetch_error {g : Fault} (h : s.fetch s.pc = .error g) : s.Raises f ↔ f = g := by
  rw [raises_iff]
  obtain ⟨-, -, he⟩ | ⟨hex, he⟩ | ⟨hex, hco, hst, he⟩ := s.fetch_cases s.pc <;> rw [he] at h <;> cases h
  · have hf : ¬ s.Fetchable := fun hf => hex hf.1
    simp [eq_false hex, eq_false hf]
  · have hf : ¬ s.Fetchable := by simp [State.Fetchable, hco, hst]
    simp [eq_true hex, eq_false hf]

/-- The fetch at PC succeeds only where the word can be fetched (R47, R48). -/
theorem fetchable_of_fetch_ok {w : Word} (h : s.fetch s.pc = .ok w) : s.Fetchable := by
  obtain ⟨hex, hst, he⟩ | ⟨-, he⟩ | ⟨-, -, -, he⟩ := s.fetch_cases s.pc <;> rw [he] at h <;> cases h
  exact ⟨hex, hst⟩

/-- Where the word fetched is no instruction, the table names that fault and no other (R80, R172). -/
theorem raises_iff_of_decode_error {e : DecodeError} (hf : s.Fetchable) (h : decodeWord (s.wordAt s.pc) = .error e) :
    s.Raises f ↔ f = .illegalInstruction (s.wordAt s.pc) := by
  rw [raises_iff]
  simp [eq_true hf, eq_true hf.1, h]

/-- Where an instruction is about to run, the table comes down to that instruction's part of it (R172). -/
theorem raises_iff_of_decode_ok {i : Instr} (hf : s.Fetchable) (h : decodeWord (s.wordAt s.pc) = .ok i) :
    s.Raises f ↔ InstrRaises i s f := by
  rw [raises_iff]
  simp [eq_true hf, eq_true hf.1, h]

end

/-- Settles O31, by what the fetch and the decoder answer: the table then names the fault that the step takes, and no other. -/
theorem faultsAreRaisedExactlyWhenTheTableSays : Obligations.FaultsAreRaisedExactlyWhenTheTableSays := by
  intro s f ⟨hmark, hpc⟩
  change TakesFault (step s) f ↔ s.Raises f
  obtain ⟨g, hg, -⟩ | ⟨⟨-, hend⟩, -⟩ | ⟨-, g, hfetch, he⟩ | ⟨-, hfetch, ⟨e, hdec⟩, he⟩ | ⟨-, hfetch, i, hdec, he⟩ := step_cases s
  · rw [hmark] at hg; cases hg
  · exact absurd hend hpc
  · rw [he, takesFault_raise, raises_iff_of_fetch_error hfetch]
  · rw [he, takesFault_raise, raises_iff_of_decode_error (fetchable_of_fetch_ok hfetch) hdec]
  · rw [he, takesFault_exec_iff hmark, raises_iff_of_decode_ok (fetchable_of_fetch_ok hfetch) hdec]

end Sys2Proof.Proofs
end

section
namespace Sys2Proof.Proofs
open Sys2Proof Sys2Proof.Machine

/-! ## The bytes of a word (R41) -/

/-- Each byte of a word in memory is the one put there. -/
theorem byteOfWord_wordOfBytes (b0 b1 b2 b3 : Byte) :
    byteOfWord (wordOfBytes b0 b1 b2 b3) 0 = b0 ∧ byteOfWord (wordOfBytes b0 b1 b2 b3) 1 = b1 ∧
    byteOfWord (wordOfBytes b0 b1 b2 b3) 2 = b2 ∧ byteOfWord (wordOfBytes b0 b1 b2 b3) 3 = b3 := by
  unfold byteOfWord wordOfBytes
  exact ⟨BitVec.extractLsb'_append_eq_right,
    (BitVec.extractLsb'_append_eq_of_le (by omega)).trans BitVec.extractLsb'_append_eq_right,
    (BitVec.extractLsb'_append_eq_of_le (by omega)).trans
      ((BitVec.extractLsb'_append_eq_of_le (by omega)).trans BitVec.extractLsb'_append_eq_right),
    (BitVec.extractLsb'_append_eq_of_le (by omega)).trans
      ((BitVec.extractLsb'_append_eq_of_le (by omega)).trans BitVec.extractLsb'_append_eq_left)⟩

/-- The bytes of the word at an address are the bytes from that address on. -/
theorem byteOfWord_wordAt (s : State) (a : Word) :
    byteOfWord (s.wordAt a) 0 = s.byteAt a.toNat ∧ byteOfWord (s.wordAt a) 1 = s.byteAt (a.toNat + 1) ∧
    byteOfWord (s.wordAt a) 2 = s.byteAt (a.toNat + 2) ∧ byteOfWord (s.wordAt a) 3 = s.byteAt (a.toNat + 3) :=
  byteOfWord_wordOfBytes ..

/-! ## The accesses of LW and SW, by the address (R42, R45, R47) -/

section
variable {s t : State} {a v : Word}

theorem memRead_of_exists (hw : IsWordAddress a) (hex : s.Exists a) : s.memRead a = .ok (s.wordAt a) := by
  obtain ⟨-, -, h⟩ | ⟨hn, -⟩ | ⟨-, hn, -⟩ := s.memRead_cases a
  exacts [h, absurd hw hn, absurd hex hn]

theorem memRead_of_misaligned (hw : ¬ IsWordAddress a) : s.memRead a = .error (.loadAddressMisaligned a) := by
  obtain ⟨h, -⟩ | ⟨-, h⟩ | ⟨h, -⟩ := s.memRead_cases a
  exacts [absurd h hw, h, absurd h hw]

theorem memRead_of_missing (hw : IsWordAddress a) (hex : ¬ s.Exists a) : s.memRead a = .error (.loadAccessFault a) := by
  obtain ⟨-, h, -⟩ | ⟨h, -⟩ | ⟨-, -, h⟩ := s.memRead_cases a
  exacts [absurd h hex, absurd hw h, h]

theorem memWrite_of_exists (hw : IsWordAddress a) (hex : s.Exists a) : s.memWrite a v = .ok (s.storeWord a v) := by
  obtain ⟨-, -, h⟩ | ⟨hn, -⟩ | ⟨-, hn, -⟩ := s.memWrite_cases a v
  exacts [h, absurd hw hn, absurd hex hn]

theorem memWrite_of_misaligned (hw : ¬ IsWordAddress a) : s.memWrite a v = .error (.storeAddressMisaligned a) := by
  obtain ⟨h, -⟩ | ⟨-, h⟩ | ⟨h, -⟩ := s.memWrite_cases a v
  exacts [absurd h hw, h, absurd h hw]

theorem memWrite_of_missing (hw : IsWordAddress a) (hex : ¬ s.Exists a) : s.memWrite a v = .error (.storeAccessFault a) := by
  obtain ⟨-, h, -⟩ | ⟨h, -⟩ | ⟨-, -, h⟩ := s.memWrite_cases a v
  exacts [absurd h hex, absurd hw h, h]

/-- All that SW can do: its word is stored at an aligned existing address, or it takes a fault and changes nothing else (R142). -/
theorem exec_sw_cases {rs2 rs1 : Reg} {imm : BitVec 12} (h : exec (.sw rs2 rs1 imm) s = .next t) :
    (IsWordAddress (s.effAddr rs1 imm) ∧ s.Exists (s.effAddr rs1 imm) ∧
      t = (s.storeWord (s.effAddr rs1 imm) (s.x rs2)).setPc s.nextPc) ∨
    ∃ f, t = { s with faulted := some f } := by
  obtain ⟨hw, hex, hm⟩ | ⟨-, hm⟩ | ⟨-, -, hm⟩ := s.memWrite_cases (s.effAddr rs1 imm) (s.x rs2)
  · rw [exec_sw_of_ok hm] at h
    exact .inl ⟨hw, hex, (Host.Outcome.next.inj h).symm⟩
  all_goals
    rw [exec_sw_of_error hm] at h
    exact .inr ⟨_, (s.raise_eq_next_iff t _).1 h⟩

end

/-- Two words at different multiples of 4 do not overlap (R42). -/
theorem apart_of_isWordAddress_of_ne {a c : Word} (ha : IsWordAddress a) (hc : IsWordAddress c) (h : c ≠ a) :
    c.toNat + 4 ≤ a.toNat ∨ a.toNat + 4 ≤ c.toNat := by
  have hne : c.toNat ≠ a.toNat := fun e => h (BitVec.eq_of_toNat_eq e)
  unfold IsWordAddress at ha hc
  omega

/-! ## LW and SW (R141, R142) -/

/-- Settles O11: LW retires with the word at its address. -/
theorem lwLoadsTheAddressedWord : Obligations.LwLoadsTheAddressedWord := by
  intro rd rs1 imm s
  refine ⟨decodeWord_encode (i := .lw rd rs1 imm) rfl, ?_⟩
  rintro ea rfl hw hex
  exact completes_of_retire (exec_lw_of_ok (memRead_of_exists hw hex)) (byteOfWord_wordAt s _)

/-- Settles O12: the fault of the access is the fault of LW, whatever `rd` is. -/
theorem lwFaultsOnABadAddress : Obligations.LwFaultsOnABadAddress := by
  rintro rd rs1 imm s ea rfl
  exact ⟨fun hw => exec_lw_of_error (memRead_of_misaligned hw), fun hw hex => exec_lw_of_error (memRead_of_missing hw hex)⟩

/-- Settles O13: SW stores its register at its address and goes on. -/
theorem swStoresTheWord : Obligations.SwStoresTheWord := by
  intro rs2 rs1 imm s
  refine ⟨decodeWord_encode (i := .sw rs2 rs1 imm) rfl, ?_⟩
  rintro ea rfl hw hex
  exact ⟨_, exec_sw_of_ok (memWrite_of_exists hw hex), s.storesWord_storeWord_setPc _ _⟩

/-- Settles O14: the fault of the access is the fault of SW. -/
theorem swFaultsOnABadAddress : Obligations.SwFaultsOnABadAddress := by
  rintro rs2 rs1 imm s ea rfl
  exact ⟨fun hw => exec_sw_of_error (memWrite_of_misaligned hw), fun hw hex => exec_sw_of_error (memWrite_of_missing hw hex)⟩

/-- Settles O39: LW retires with the word at its address in the state that SW leaves; that word is the one stored, or it lies apart
from it and is the old one. -/
theorem aLoadReturnsTheLatestStore : Obligations.ALoadReturnsTheLatestStore := by
  rintro rs2 rs1 rd base imm disp s t ea la - hsw hmark rfl rfl hla hex
  have hlw := exec_lw_of_ok (rd := rd) (memRead_of_exists hla hex)
  refine completes_of_retire hlw ?_
  obtain ⟨hea, -, rfl⟩ | ⟨f, rfl⟩ := exec_sw_cases hsw
  · exact ⟨fun heq => (congrArg (State.wordAt _) heq).trans (s.wordAt_storeWord_self _ _),
      fun hne => s.wordAt_storeWord_of_apart _ _ _ (apart_of_isWordAddress_of_ne hea hla hne)⟩
  · cases hmark

end Sys2Proof.Proofs
end

section
namespace Sys2Proof.Proofs
open Sys2Proof Sys2Proof.Machine

/-! ## What a step answers, by where the machine stands (R170, R192, R193) -/

section
variable {s t : State} {f : Fault}

theorem step_of_faulted (h : s.faulted = some f) : step s = .fault f := by
  simp [step, h]

theorem step_of_ended (h : s.Ended) : step s = .refused .runEnded := by
  simp [step, h.1, h.2]

theorem step_of_fetch_error (hr : s.Running) (h : s.fetch s.pc = .error f) : step s = s.raise f := by
  simp [step, hr.1, hr.2, h]

theorem fetch_of_fetchable (h : s.Fetchable) : s.fetch s.pc = .ok (s.wordAt s.pc) := by
  obtain ⟨hex, hst⟩ := h
  obtain ⟨-, -, hok⟩ | ⟨hn, -⟩ | ⟨-, hco, hin, -⟩ := s.fetch_cases s.pc
  · exact hok
  · exact absurd hex hn
  · simp [hco, hin] at hst

theorem step_of_aboutToRun {i : Instr} (hr : s.Running) (h : s.AboutToRun i) : step s = exec i s := by
  simp [step, hr.1, hr.2, fetch_of_fetchable h.1, h.2]

theorem step_of_illegal (hr : s.Running) (hf : s.Fetchable) (h : ∀ i, decodeWord (s.wordAt s.pc) ≠ .ok i) :
    step s = s.raise (.illegalInstruction (s.wordAt s.pc)) := by
  cases hd : decodeWord (s.wordAt s.pc) with
  | ok i => exact absurd hd (h i)
  | error e => simp [step, hr.1, hr.2, fetch_of_fetchable hf, hd]

/-- All that a step that answers a next state can have done: it took a fault of the fetch or of decoding, and only the mark is
set, or it ran the instruction at PC. -/
theorem step_next_cases (h : step s = .next t) :
    s.Running ∧ ((∃ f, t = { s with faulted := some f }) ∨ ∃ i, s.AboutToRun i ∧ exec i s = .next t) := by
  obtain ⟨f, -, he⟩ | ⟨-, he⟩ | ⟨hr, f, -, he⟩ | ⟨hr, -, -, he⟩ | ⟨hr, hfetch, i, hdec, he⟩ := step_cases s <;> rw [he] at h
  · cases h
  · cases h
  · exact ⟨hr, .inl ⟨f, (s.raise_eq_next_iff t f).1 h⟩⟩
  · exact ⟨hr, .inl ⟨_, (s.raise_eq_next_iff t _).1 h⟩⟩
  · exact ⟨hr, .inr ⟨i, ⟨fetchable_of_fetch_ok hfetch, hdec⟩, h⟩⟩

end

/-- The decoder reads one instruction from a word. -/
theorem aboutToRun_unique {s : State} {i j : Instr} (hi : s.AboutToRun i) (hj : s.AboutToRun j) : i = j :=
  Except.ok.inj (hi.2.symm.trans hj.2)

/-! ## The step (R80, R170, R192, R193) -/

/-- Settles O30: the mark that a step sets is that of a fault, for no instruction's write sets one. -/
theorem faultsArePreciseAndTerminal : Obligations.FaultsArePreciseAndTerminal := by
  intro s t f hrun h hmark
  refine ⟨?_, step_of_faulted hmark⟩
  have marked : ∀ g, t = { s with faulted := some g } → t = { s with faulted := some f } := by
    rintro g rfl
    cases hmark
    rfl
  obtain ⟨-, ⟨g, ht⟩ | ⟨i, -, hi⟩⟩ := step_next_cases h
  · exact marked g ht
  obtain ⟨g, ht⟩ | ⟨u, hu, rfl, -⟩ := exec_next_cases hi
  · exact marked g ht
  · rw [State.setPc_faulted, hu.faulted, hrun] at hmark
    cases hmark

/-- Settles O32: a running machine takes the fault of the fetch or of decoding, or its instruction answers a next state. -/
theorem aRunningMachineAlwaysSteps : Obligations.ARunningMachineAlwaysSteps := by
  intro s
  refine ⟨fun hr => ?_, fun f => step_of_faulted, step_of_ended⟩
  obtain ⟨f, hf, -⟩ | ⟨he, -⟩ | ⟨-, f, -, h⟩ | ⟨-, -, -, h⟩ | ⟨-, -, i, -, h⟩ := step_cases s
  · rw [hr.1] at hf; cases hf
  · exact absurd he.2 hr.2
  · exact ⟨_, h⟩
  · exact ⟨_, h⟩
  · rw [h]; exact exec_answers_next i s

/-- Settles O34: the decoder reads an instruction only from a word that matches a row. -/
theorem unlistedWordsAreIllegal : Obligations.UnlistedWordsAreIllegal := by
  intro s hr hf hrows
  exact step_of_illegal hr hf ((no_row_matches_iff _).1 hrows)

/-- Settles O33: the fetch answers the word at PC, and decoding it the instruction. -/
theorem stepRunsTheDecodedInstruction : Obligations.StepRunsTheDecodedInstruction :=
  fun _ _ => step_of_aboutToRun

/-- Settles O40: with coherence the stored word can be fetched; without it the fetch faults, and the step takes that fault. -/
theorem fetchOfAStoredWordDependsOnCoherence : Obligations.FetchOfAStoredWordDependsOnCoherence := by
  intro s i hr hex hst
  constructor
  · intro hco
    obtain ⟨-, hn, -⟩ | ⟨hn, -⟩ | ⟨-, -, -, hfetch⟩ := s.fetch_cases s.pc
    · simp [hco, hst] at hn
    · exact absurd hex hn
    · exact step_of_fetch_error hr hfetch
  · exact fun hco hdec => step_of_aboutToRun hr ⟨⟨hex, .inl hco⟩, hdec⟩

end Sys2Proof.Proofs
end

section
namespace Sys2Proof.Proofs
open Sys2Proof Sys2Proof.Machine

/-! ## What keeps the invariant (R4, R26, R31, R47) -/

section
variable {s : State}

theorem inv_marked (h : s.Inv) (f : Fault) : State.Inv { s with faulted := some f } where
  __ := h

theorem inv_setPc (h : s.Inv) {target : Word} (hw : IsWordAddress target) : (s.setPc target).Inv where
  __ := h
  pc_aligned := hw

/-- The invariant speaks of no register. -/
theorem inv_setX (h : s.Inv) (rd : Reg) (v : Word) : (s.setX rd v).Inv := by
  unfold State.setX
  split
  · exact h
  · exact { h with }

/-- A word stored at an aligned existing address: its bytes lie inside memory and are fixed, and the address is that of a word. -/
theorem inv_storeWord (h : s.Inv) {ea : Word} (hw : IsWordAddress ea) (hex : s.Exists ea) (v : Word) :
    (s.storeWord ea v).Inv where
  pc_aligned := h.pc_aligned
  params_wf := h.params_wf
  mem_wf := Memory.wf_putWord h.mem_wf _ _
  mem_inside c hc := by
    obtain ⟨hlo, hhi⟩ := hex
    rw [State.storeWord_params]
    rcases Memory.mem_putWord hc with hc | hc
    · omega
    · exact h.mem_inside c hc
  stored_wf := addrWf_addrInsert h.stored_wf _
  stored_words a ha := by
    rcases (mem_addrInsert _ _ _).1 ha with rfl | ha
    · exact ⟨hw, hex⟩
    · exact h.stored_words a ha
  stored_fixed a ha k hk := by
    rcases (mem_addrInsert _ _ _).1 ha with rfl | ha
    · exact Memory.find_putWord_isSome _ _ _ hk
    · exact Memory.find_putWord_mono _ _ _ _ (h.stored_fixed a ha k hk)

end

/-! ## What an instruction stores (R23, R47) -/

section
variable {i : Instr} {s t : State}

/-- All that an instruction with an address to store to can do: a word is stored there, and the address is aligned and exists, or it
takes a fault and changes nothing else. -/
theorem exec_cases_of_storeAddress {ea : Word} (ha : i.storeAddress s = some ea) (h : exec i s = .next t) :
    (IsWordAddress ea ∧ s.Exists ea ∧ ∃ v, t = (s.storeWord ea v).setPc s.nextPc) ∨
    ∃ f, t = { s with faulted := some f } := by
  cases i with
  | sw rs2 rs1 imm =>
    obtain rfl : s.effAddr rs1 imm = ea := Option.some.inj ha
    exact (exec_sw_cases h).imp_left fun ⟨hw, hex, ht⟩ => ⟨hw, hex, _, ht⟩
  | _ => cases ha

/-- An instruction keeps the invariant: its write does, and PC stays a multiple of 4. -/
theorem inv_of_exec (hs : s.Inv) (h : exec i s = .next t) : t.Inv := by
  have hpc : IsWordAddress t.pc := exec_isWordAddress_pc hs.pc_aligned h
  obtain ⟨f, rfl⟩ | ⟨u, hu, rfl, -⟩ := exec_next_cases h
  · exact inv_marked hs f
  cases hu with
  | nothing => exact inv_setPc hs hpc
  | register v _ => exact inv_setPc (inv_setX hs _ v) hpc
  | memory _ ha =>
    obtain ⟨hw, hex, v, ht⟩ | ⟨f, ht⟩ := exec_cases_of_storeAddress ha h
    · rw [ht] at hpc ⊢
      exact inv_setPc (inv_storeWord hs hw hex v) hpc
    · rw [ht]
      exact inv_marked hs f

/-- An instruction run unfaulted adds to the `stored` set the address of a store that completed, and nothing else. -/
theorem mem_stored_of_exec (hrun : s.faulted = none) (h : exec i s = .next t) (a : Nat) :
    a ∈ t.stored ↔ a ∈ s.stored ∨ ∃ ea, i.storeAddress s = some ea ∧ t.faulted = none ∧ a = ea.toNat := by
  cases ha : i.storeAddress s with
  | none =>
    obtain ⟨-, -, hstored, -⟩ := onlyTheNamedDestinationsChange i s t h
    simpa [ha] using hstored a (by simp [ha])
  | some ea =>
    obtain ⟨-, -, v, rfl⟩ | ⟨f, rfl⟩ := exec_cases_of_storeAddress ha h
    · simp [hrun, or_comm]
    · simp

end

/-! ## The invariant, at a launch and after a step -/

/-- Settles O28: a fault of the fetch or of decoding sets only the mark, and every instruction keeps the invariant. -/
theorem everyStepKeepsTheInvariant : Obligations.EveryStepKeepsTheInvariant := by
  intro s t hs h
  obtain ⟨-, ⟨f, rfl⟩ | ⟨i, -, hi⟩⟩ := step_next_cases h
  · exact inv_marked hs f
  · exact inv_of_exec hs hi

/-- Settles O41: a step that runs no instruction sets only the mark, and an instruction adds the address of its completed store. -/
theorem theStoredSetGrowsByStoresOnly : Obligations.TheStoredSetGrowsByStoresOnly := by
  intro s t a h
  obtain ⟨hr, ⟨f, rfl⟩ | ⟨i, hrun, hi⟩⟩ := step_next_cases h
  · simp
  rw [mem_stored_of_exec hr.1 hi]
  refine or_congr_right ⟨fun ⟨ea, hea⟩ => ⟨i, ea, hrun, hea⟩, ?_⟩
  rintro ⟨j, ea, hj, hea⟩
  obtain rfl := aboutToRun_unique hj hrun
  exact ⟨ea, hea⟩

/-- A launch as the spec asks for it meets the invariant: the image is the memory, and nothing has been stored (R33). -/
theorem inv_launch {l : Launch} (h : l.wf = true) : (State.launch l).Inv := by
  simp only [Launch.wf, Bool.and_eq_true] at h
  obtain ⟨⟨hparams, himage⟩, hinside⟩ := h
  have hreset : IsWordAddress l.params.resetPc := by
    simp only [Params.wf, Bool.and_eq_true, decide_eq_true_eq] at hparams
    tauto
  exact {
    pc_aligned := hreset
    params_wf := hparams
    mem_wf := himage
    mem_inside := (Memory.within_iff _ _ _).1 hinside
    stored_wf := rfl
    stored_words := by simp
    stored_fixed := by simp }

/-- Settles O26: `State.reset` is the launch of `Launch.unloaded`, which is well-formed. -/
theorem everyLaunchStateIsSound : Obligations.EveryLaunchStateIsSound :=
  ⟨fun _ => inv_launch, inv_launch (l := Launch.unloaded) (by decide)⟩

/-- Register `k + 1` is entry `k` of the 31 (R21). -/
theorem x_ofNat_succ (s : State) {k : Nat} (hk : k < 31) : s.x (BitVec.ofNat 5 (k + 1)) = s.regs[k] := by
  have hnat : (BitVec.ofNat 5 (k + 1)).toNat = k + 1 := Nat.mod_eq_of_lt (by omega)
  have hne : BitVec.ofNat 5 (k + 1) ≠ 0#5 := fun e => by simp [e] at hnat
  simp only [State.x, hne, if_false, hnat, Nat.add_sub_cancel]

/-- Settles O27: a listed byte reads as the image has it, and the register file is `REG_INIT`. -/
theorem launchLeavesTheResetTable : Obligations.LaunchLeavesTheResetTable := by
  intro l
  refine ⟨rfl, rfl, fun k hk => x_ofNat_succ _ hk, fun a b hab => ?_, rfl, rfl, rfl⟩
  rw [State.byteAt, State.launch_mem, hab, Option.getD_some]

/-! ## Memory in canonical form (R31) -/

/-- The first cell is what is listed at its address. -/
theorem find_cons_self (k : Nat) (v : Byte) (m : Memory) : Memory.find ((k, v) :: m) k = some v := by
  simp [Memory.find]

/-- Below its first cell a canonical memory lists nothing. -/
theorem find_cons_of_lt {k : Nat} {v : Byte} {m : Memory} (hk : ∀ c ∈ m, k < c.1) {a : Nat} (ha : a < k) :
    Memory.find ((k, v) :: m) a = none := by
  refine Memory.find_eq_none_of_lt fun c hc => ?_
  rcases List.mem_cons.1 hc with rfl | hc
  · exact ha
  · exact ha.trans (hk c hc)

/-- Settles O44, by induction on both lists: the first cells are at the same address, for each memory lists nothing below its first,
and the rest lists the same, for no later cell is at that address. -/
theorem equalMemoriesAreEqualData : Obligations.EqualMemoriesAreEqualData := by
  intro m n hm hn h
  rw [Memory.wf_iff] at hm hn
  induction m generalizing n with
  | nil =>
    cases n with
    | nil => rfl
    | cons q n => simpa [find_cons_self, Memory.find] using h q.1
  | cons p m ih =>
    obtain ⟨k, v⟩ := p
    obtain ⟨hk, hmtail⟩ := List.pairwise_cons.1 hm
    cases n with
    | nil => simpa [find_cons_self, Memory.find] using h k
    | cons q n =>
      obtain ⟨l, w⟩ := q
      obtain ⟨hl, hntail⟩ := List.pairwise_cons.1 hn
      have hfirst : k = l := by
        rcases Nat.lt_trichotomy k l with hlt | heq | hlt
        · simpa [find_cons_self, find_cons_of_lt hl hlt] using h k
        · exact heq
        · simpa [find_cons_self, find_cons_of_lt hk hlt] using h l
      subst hfirst
      have hvalue : v = w := by simpa [find_cons_self] using h k
      have hrest : ∀ a, Memory.find m a = Memory.find n a := by
        intro a
        by_cases ha : k = a
        · subst ha
          rw [Memory.find_eq_none_of_lt hk, Memory.find_eq_none_of_lt hl]
        · simpa [Memory.find, ha] using h a
      rw [hvalue, ih n hmtail hntail hrest]

end Sys2Proof.Proofs
end

section
namespace Sys2Proof.Proofs
open Sys2Proof Sys2Proof.Machine

/-! ## Decoding the bytes of a word (R41, R60) -/

/-- Decoding the four bytes of a word, with any bytes after them, is decoding the word. -/
theorem decode_bytesOfWord (w : Word) (rest : List Byte) :
    decode (byteOfWord w 0 :: byteOfWord w 1 :: byteOfWord w 2 :: byteOfWord w 3 :: rest) =
      (decodeWord w).map fun i => (i, rest) := by
  rw [decode, wordOfBytes_byteOfWord]
  cases decodeWord w <;> rfl

/-- Settles O36: the bytes of the encoding are put together to the encoded word, which decodes to the instruction. -/
theorem encodedInstructionsDecodeBack : Obligations.EncodedInstructionsDecodeBack := by
  intro i rest hwf
  calc decode (encodeBytes i ++ rest)
      = (decodeWord (encode i)).map fun j => (j, rest) := decode_bytesOfWord (encode i) rest
    _ = .ok (i, rest) := by rw [decodeWord_encode hwf]; rfl

/-- Settles O38: each word is the encoding of the instruction that the spec names. -/
theorem theSpecsSampleWordsDecode : Obligations.TheSpecsSampleWordsDecode :=
  ⟨decodeWord_encode (i := .sub 5#5 6#5 7#5) rfl, decodeWord_encode (i := .addi 5#5 6#5 0xFFF#12) rfl,
    decodeWord_encode (i := .srai 5#5 6#5 3#5) rfl, decodeWord_encode (i := .lw 5#5 6#5 8#12) rfl,
    decodeWord_encode (i := .sw 7#5 6#5 0xFFC#12) rfl, decodeWord_encode (i := .jal 0#5 0x12344#21) rfl,
    decodeWord_encode (i := .beq 5#5 6#5 0x804#13) rfl⟩

/-! ## A word placed at PC (R203) -/

/-- A 32-bit word takes no notice of the bits above (R60). -/
theorem ofNat_mod_two_pow (w : Nat) : BitVec.ofNat 32 (w % 2 ^ 32) = BitVec.ofNat 32 w :=
  BitVec.eq_of_toNat_eq (by simp)

/-- The host's reading of a 32-bit table word is that of the decoder. -/
theorem decodeTableWord_eq_some_iff (w : Nat) (i : Instr) :
    decodeTableWord 32 w = some i ↔ decodeWord (BitVec.ofNat 32 w) = .ok i := by
  rw [decodeTableWord, if_pos le_rfl, ofNat_mod_two_pow]
  dsimp only
  rw [decode_bytesOfWord]
  cases decodeWord (BitVec.ofNat 32 w) <;> simp [Except.map]

section
variable (s : State) (w : Nat)

theorem withFetchWord_eq_loadWord : s.withFetchWord 32 w = s.loadWord s.pc (BitVec.ofNat 32 w) := by
  rw [State.withFetchWord, ofNat_mod_two_pow]

/-- The word placed is the one at PC. -/
theorem wordAt_withFetchWord : (s.withFetchWord 32 w).wordAt s.pc = BitVec.ofNat 32 w := by
  rw [withFetchWord_eq_loadWord, State.wordAt_loadWord_self]

/-- Where the word at PC exists, the placed word can be fetched: it does not count as stored (R48). -/
theorem fetchable_withFetchWord (hex : s.Exists s.pc) : (s.withFetchWord 32 w).Fetchable := by
  refine ⟨hex, .inr ?_⟩
  rw [withFetchWord_eq_loadWord, State.loadWord_stored, State.loadWord_pc, mem_addrErase]
  exact fun h => h.2 rfl

/-- Placing a word leaves every byte outside it alone. -/
theorem byteAt_withFetchWord_of_outside {a : Nat} (h : a < s.pc.toNat ∨ s.pc.toNat + 4 ≤ a) :
    (s.withFetchWord 32 w).byteAt a = s.byteAt a := by
  rw [withFetchWord_eq_loadWord, State.byteAt, State.loadWord_mem, Memory.find_putWord_of_outside _ _ h, State.byteAt]

end

/-- Settles O45: the placed word can be fetched and reads back, so the step is that of the instruction the decoder reads from it, or
of a word that is none. -/
theorem aWordPlacedAtPcIsTheOneRun : Obligations.AWordPlacedAtPcIsTheOneRun := by
  rintro s p w i hr hex rfl
  have hf := fetchable_withFetchWord s w hex
  have hword := wordAt_withFetchWord s w
  refine ⟨fun hdec => ?_, fun hnone => ?_, fun _ => rfl, rfl, rfl, rfl, fun _ => byteAt_withFetchWord_of_outside s w⟩
  · exact step_of_aboutToRun hr ⟨hf, (congrArg decodeWord hword).trans ((decodeTableWord_eq_some_iff w i).1 hdec)⟩
  · rw [← hword]
    refine step_of_illegal hr hf fun j hj => ?_
    have hsome := (decodeTableWord_eq_some_iff w j).2 ((congrArg decodeWord hword).symm.trans hj)
    rw [hnone] at hsome
    cases hsome

end Sys2Proof.Proofs
end

section
namespace Sys2Proof.Proofs
open Sys2Proof Sys2Proof.Machine

/-! ## Jumps and branches by their target (R46, R150, R160) -/

section
variable {i : Instr} {s : State} {target : Word}

/-- A jump to an aligned target completes: the link is written and PC is the target. -/
theorem completes_of_jump {rd : Reg} (h : exec i s = s.jump rd target) (hw : IsWordAddress target) :
    ∃ t, exec i s = .next t ∧ WritesRegister s t rd (s.pc + 4#32) target :=
  ⟨_, h.trans (s.jump_of_isWordAddress rd hw), s.writesRegister_setX_setPc rd _ target⟩

/-- A branch on a condition that holds completes at an aligned target. -/
theorem completes_of_taken {c : Bool} (h : exec i s = s.branch c target) (hc : c = true) (hw : IsWordAddress target) :
    ∃ t, exec i s = .next t ∧ WritesOnlyPc s t target :=
  ⟨_, h.trans (s.branch_of_taken hc hw), s.writesOnlyPc_setPc target⟩

/-- A branch on a condition that fails completes at the next word, whatever its target. -/
theorem completes_of_not_taken {c : Bool} (h : exec i s = s.branch c target) (hc : ¬ c = true) :
    ∃ t, exec i s = .next t ∧ WritesOnlyPc s t (s.pc + 4#32) :=
  ⟨_, h.trans (s.branch_of_not_taken target (Bool.eq_false_iff.2 hc)), s.writesOnlyPc_setPc _⟩

/-- A jump to a misaligned target only sets the mark. -/
theorem jump_of_misaligned (rd : Reg) (hw : ¬ IsWordAddress target) :
    s.jump rd target = s.raise (.instructionAddressMisaligned target) := by
  rw [State.jump, if_neg (mt (aligned_iff _).1 hw)]

/-- A branch taken to a misaligned target only sets the mark. -/
theorem branch_of_misaligned (hw : ¬ IsWordAddress target) :
    s.branch true target = s.raise (.instructionAddressMisaligned target) := by
  rw [State.branch, if_pos rfl, if_neg (mt (aligned_iff _).1 hw)]

end

theorem evenB_of_getLsbD {imm : BitVec 13} (h : imm.getLsbD 0 = false) : evenB imm = true := by
  rw [evenB, h]; rfl

theorem evenJ_of_getLsbD {imm : BitVec 21} (h : imm.getLsbD 0 = false) : evenJ imm = true := by
  rw [evenJ, h]; rfl

/-! ## The jumps (R151, R152) -/

/-- Settles O15: JAL is a jump to its target, which is checked before the link is written. -/
theorem jalLinksAndJumps : Obligations.JalLinksAndJumps := by
  intro rd imm s
  refine ⟨fun heven => decodeWord_encode (i := .jal rd imm) (evenJ_of_getLsbD heven), ?_⟩
  rintro target rfl hw
  exact completes_of_jump rfl hw

/-- Settles O16: the link is written after the target is computed, so `rd = rs1` is no case of its own. -/
theorem jalrLinksAndJumps : Obligations.JalrLinksAndJumps := by
  intro rd rs1 imm s
  refine ⟨decodeWord_encode (i := .jalr rd rs1 imm) rfl, ?_⟩
  rintro target rfl hw
  exact completes_of_jump rfl hw

/-! ## The branches (R161 to R166) -/

/-- Settles O17: BEQ and BNE branch on a condition and on its negation. -/
theorem beqBneBranchOnEquality : Obligations.BeqBneBranchOnEquality := by
  intro rs1 rs2 imm s
  have heq := eqWord_iff (s.x rs1) (s.x rs2)
  have hne := neWord_iff (s.x rs1) (s.x rs2)
  exact ⟨fun heven => decodeWord_encode (i := .beq rs1 rs2 imm) (evenB_of_getLsbD heven),
    fun heven => decodeWord_encode (i := .bne rs1 rs2 imm) (evenB_of_getLsbD heven),
    fun h => completes_of_taken rfl (heq.2 h), fun h => completes_of_not_taken rfl (mt heq.1 h),
    fun h => completes_of_taken rfl (hne.2 h), fun h => completes_of_not_taken rfl (mt hne.1 (not_not_intro h))⟩

/-- Settles O18: BLT and BGE branch on a condition and on its negation. -/
theorem bltBgeBranchOnSignedOrder : Obligations.BltBgeBranchOnSignedOrder := by
  intro rs1 rs2 imm s
  have hlt := ltSigned_iff (s.x rs1) (s.x rs2)
  have hge := geSigned_iff (s.x rs1) (s.x rs2)
  exact ⟨fun heven => decodeWord_encode (i := .blt rs1 rs2 imm) (evenB_of_getLsbD heven),
    fun heven => decodeWord_encode (i := .bge rs1 rs2 imm) (evenB_of_getLsbD heven),
    fun h => completes_of_taken rfl (hlt.2 h), fun h => completes_of_not_taken rfl (mt hlt.1 h.not_gt),
    fun h => completes_of_taken rfl (hge.2 h), fun h => completes_of_not_taken rfl (mt hge.1 h.not_ge)⟩

/-- Settles O19: BLTU and BGEU branch on a condition and on its negation. -/
theorem bltuBgeuBranchOnUnsignedOrder : Obligations.BltuBgeuBranchOnUnsignedOrder := by
  intro rs1 rs2 imm s
  have hlt := ltUnsigned_iff (s.x rs1) (s.x rs2)
  have hge := geUnsigned_iff (s.x rs1) (s.x rs2)
  exact ⟨fun heven => decodeWord_encode (i := .bltu rs1 rs2 imm) (evenB_of_getLsbD heven),
    fun heven => decodeWord_encode (i := .bgeu rs1 rs2 imm) (evenB_of_getLsbD heven),
    fun h => completes_of_taken rfl (hlt.2 h), fun h => completes_of_not_taken rfl (mt hlt.1 h.not_gt),
    fun h => completes_of_taken rfl (hge.2 h), fun h => completes_of_not_taken rfl (mt hge.1 h.not_ge)⟩

/-- Settles O20: only a jump and a taken branch have a target, and both check it before they write. -/
theorem takenTransfersToMisalignedTargetsFault : Obligations.TakenTransfersToMisalignedTargetsFault := by
  intro i s target htarget hw
  obtain ⟨rd, v, -, ht, -⟩ | ⟨rd, rs1, imm, rfl, -⟩ | ⟨rs2, rs1, imm, rfl, -⟩ | ⟨rd, a, -, ht, -, -, he⟩ |
    ⟨taken, a, -, ht, -, -, he⟩ := exec_shape i s
  · rw [ht] at htarget; cases htarget
  · cases htarget
  · cases htarget
  · obtain rfl : a = target := by simpa [ht] using htarget
    exact he.trans (jump_of_misaligned rd hw)
  · obtain ⟨rfl, rfl⟩ : taken = true ∧ a = target := by simpa [ht] using htarget
    exact he.trans (branch_of_misaligned hw)

end Sys2Proof.Proofs
end

section
namespace Sys2Proof.Proofs
open Sys2Proof Sys2Proof.Machine

/-! ## Instructions that differ in the destination alone (R22, R23) -/

/-- Two states differ in no more than the registers. -/
structure AgreeOffRegisters (t u : State) : Prop where
  pc : u.pc = t.pc
  mem : u.mem = t.mem
  stored : u.stored = t.stored
  mark : u.faulted = t.faulted
  params : u.params = t.params

/-- Two outcomes are next states that differ in no more than the registers. -/
def AlikeOffRegisters (o o' : Host.Outcome State Fault Refusal) : Prop :=
  ∃ t u, o = .next t ∧ o' = .next u ∧ AgreeOffRegisters t u

section
variable (s : State) (rd r : Reg)

theorem alikeOffRegisters_refl (t : State) : AlikeOffRegisters (.next t) (.next t) :=
  ⟨t, t, rfl, rfl, rfl, rfl, rfl, rfl, rfl⟩

theorem alikeOffRegisters_setX (v target : Word) :
    AlikeOffRegisters (.next ((s.setX rd v).setPc target)) (.next ((s.setX r v).setPc target)) :=
  ⟨_, _, rfl, rfl, by simp, by simp, by simp, by simp, by simp⟩

theorem alikeOffRegisters_retire (v : Word) : AlikeOffRegisters (s.retire rd v) (s.retire r v) :=
  alikeOffRegisters_setX s rd r v s.nextPc

theorem alikeOffRegisters_jump (target : Word) : AlikeOffRegisters (s.jump rd target) (s.jump r target) := by
  unfold State.jump
  split
  · exact alikeOffRegisters_setX s rd r s.nextPc target
  · exact alikeOffRegisters_refl _

/-- LW makes its access, and takes its fault, whatever its destination (R141). -/
theorem alikeOffRegisters_lw (rs1 : Reg) (imm : BitVec 12) :
    AlikeOffRegisters (exec (.lw rd rs1 imm) s) (exec (.lw r rs1 imm) s) := by
  cases hread : s.memRead (s.effAddr rs1 imm) with
  | ok v =>
    rw [exec_lw_of_ok hread, exec_lw_of_ok hread]
    exact alikeOffRegisters_retire s rd r v
  | error f =>
    rw [exec_lw_of_error hread, exec_lw_of_error hread]
    exact alikeOffRegisters_refl _

/-- With another destination an instruction ends in the same operation on the same operands. -/
theorem alikeOffRegisters_withDest (i : Instr) : AlikeOffRegisters (exec i s) (exec (i.withDest r) s) := by
  cases i
  case lw => exact alikeOffRegisters_lw s _ r _ _
  case jal | jalr => exact alikeOffRegisters_jump s _ r _
  case sw | beq | bne | blt | bge | bltu | bgeu =>
    -- no destination: the instruction itself
    obtain ⟨t, ht⟩ := exec_answers_next _ s
    exact ht ▸ alikeOffRegisters_refl t
  case add | sub | and | or | xor | slt | sltu | sra | srl | sll | addi | andi | ori | xori | slti | sltiu | srai | srli | slli
      | lui | auipc =>
    exact alikeOffRegisters_retire s _ r _

end

/-- An instruction with register 0 as destination, or with none, changes no register (R22). -/
theorem x_eq_of_dest_zero {i : Instr} {s u : State} (hd : ∀ r, i.dest = some r → r = 0#5) (h : exec i s = .next u) (q : Reg) :
    u.x q = s.x q := by
  obtain ⟨hregs, -⟩ := onlyTheNamedDestinationsChange i s u h
  by_cases hq : i.dest = some q
  · obtain rfl := hd q hq
    rfl
  · exact hregs q hq

theorem dest_withDest {i : Instr} {r q : Reg} (h : (i.withDest r).dest = some q) : q = r := by
  cases i <;> cases h <;> rfl

/-- Settles O22: with another destination the outcome differs in registers alone, and with register 0 in none. -/
theorem theDestinationDecidesNothingElse : Obligations.TheDestinationDecidesNothingElse := by
  intro i r s t h
  obtain ⟨t', u, ht, hu, same⟩ := alikeOffRegisters_withDest s r i
  obtain rfl : t' = t := Host.Outcome.next.inj (ht.symm.trans h)
  refine ⟨u, hu, same.pc, same.mem, same.stored, same.mark, same.params, ?_⟩
  rintro rfl
  exact x_eq_of_dest_zero (fun _ => dest_withDest) hu

end Sys2Proof.Proofs
end
